-- ==== Sys2Proof/Word.lean ====
section
/-! DEFINITION. Word.lean: the byte, and the 32-bit pattern that an `I32` or `F32` field carries. -/

namespace Sys2Proof

/-- "A byte is 8 bits" (20_memory.md R43), read as an unsigned integer 0 to 255 (R44). -/
abbrev Byte := BitVec 8

/-- The 32-bit pattern of an `I32` or `F32` field; the block only moves it (30_encoding.md R60). -/
abbrev Word32 := BitVec 32

end Sys2Proof
end

