-- ==== Sys2Proof/Config.lean ====
section
/-! DEFINITION. Config.lean: the six build-time parameters of an instance (00_scope.md R4 to R9), the field types a
schema is made of (43_schema.md R120, R121), and the free value of the model. -/

namespace Sys2Proof

/-- The closed set of semantic types of a field (30_encoding.md R60, decision D15): a 32-bit signed integer, a
32-bit IEEE float, a fixed-length byte array of `n` bytes. -/
inductive FieldType where
  | i32
  | f32
  | bytes (n : Nat)
  deriving DecidableEq, Repr

/-- One payload field: a pair (name, type). "The name is for notation only and has no effect on any byte"
(43_schema.md R120); the position is computed, not stored. -/
structure FieldSpec where
  name : String
  ty   : FieldType
  deriving DecidableEq, Repr

/-- "an ordered sequence of FieldSpec, immutable once defined" (43_schema.md R121). -/
abbrev Schema := List FieldSpec

/-- The two orders in which a 4-byte field value is laid into payload bytes (00_scope.md R7). PRESUMED (the spec's
own mark G3, log 20): `little` puts the least significant byte at the lowest offset, `big` the most significant. -/
inductive ByteOrder where
  | little
  | big
  deriving DecidableEq, Repr

/-- The six parameters of an instance, "fixed when an instance of the block is built" (00_scope.md section 4). -/
structure Config where
  /-- Payload length in bytes, any natural number (R4). -/
  P         : Nat
  /-- The ordered fields of the payload (R6). -/
  schema    : Schema
  /-- The first byte of a frame (R5). -/
  header    : Byte
  /-- The last byte of a frame; it may equal `header` (R5). -/
  footer    : Byte
  /-- How a 4-byte field is laid into bytes (R7). -/
  byteOrder : ByteOrder
  /-- Width in bits of the two checksum accumulators, at least 8 (R8). -/
  accW      : Nat
  deriving DecidableEq, Repr

/-- The byte width of a field: 4, 4 or `n` (43_schema.md R120). -/
def FieldType.width : FieldType → Nat
  | .i32 => 4
  | .f32 => 4
  | .bytes n => n

/-- The sum of all FieldSpec widths (43_schema.md R121). -/
def Schema.width : Schema → Nat
  | [] => 0
  | f :: fs => f.ty.width + Schema.width fs

/-- The source's own instance (30_encoding.md R59(a), 43_schema.md R130(a)) with the default parameters of
00_scope.md section 4. DESIGN CHOICE (log 2): `State.reset` is the reset state of this instance; the spec gives `P`
and `SCHEMA` no default. -/
def Config.reference : Config :=
  { P := 12
    schema := [⟨"my", .f32⟩, ⟨"name", .i32⟩, ⟨"target", .f32⟩]
    header := 0xAA
    footer := 0x55
    byteOrder := .little
    accW := 32 }

/-- The two P-byte buffers, the block's only storage arrays (10_state.md R37). -/
inductive Buffer where
  | tx
  | rx
  deriving DecidableEq, Repr

/-- FREE VALUE (log 5). What an offset of a buffer that nothing has written reads as: "it holds no value", "a model
must not assume zero" (10_state.md R23, R28; 93_implementation_defined.md U8 "any value"). No body: nothing can
evaluate it or prove a value of it. -/
opaque Config.unwrittenByte : Buffer → Nat → Byte

end Sys2Proof
end

