-- ==== Sys2Proof/Syntax.lean ====
section
/-! DEFINITION. Syntax.lean: the operations and data formats of spec/opcode_table.json, one constructor of `Instr`
per row (30_encoding.md R57 to R67). The block executes no program (00_scope.md R1): an `Instr` is one of the sixteen
operations of R67 or one of the two holds, with the port values it is given, or one datum in one of the data
formats. -/

namespace Sys2Proof

/-- `tx_phase`: which byte of the frame the inserter presents (10_state.md R20, 30_encoding.md R66). Values 5 to 7
are unrepresentable, as R70 and U13 ask. -/
inductive TxPhase where
  | tIdle
  | tHdr
  | tPay
  | tChk
  | tFtr
  deriving DecidableEq, Repr

/-- The four kinds of FrameError (60_exceptions.md R132); an error carries its kind and nothing else (R137). -/
inductive FrameError where
  | lengthMismatch
  | badHeader
  | badFooter
  | checksumMismatch
  deriving DecidableEq, Repr

/-- `rx_res_code`: the five results (30_encoding.md R65). Codes 5 to 7 are unrepresentable, as R70 asks. -/
inductive ResultCode where
  | ok
  | lengthMismatch
  | badHeader
  | badFooter
  | checksumMismatch
  deriving DecidableEq, Repr

/-- `Result<T, FrameError>` (00_scope.md section 6). -/
inductive FrameResult (α : Type) where
  | ok (value : α)
  | err (kind : FrameError)
  deriving DecidableEq, Repr

/-- The value of one field: a 32-bit pattern for `I32` and `F32`, the bytes of a byte array (43_schema.md R122). -/
inductive FieldValue where
  | i32 (v : Word32)
  | f32 (v : Word32)
  | bytes (a : List Byte)
  deriving DecidableEq, Repr

/-- One constructor per row of spec/opcode_table.json. Port-level operations carry the port values of their edge:
the operand the rule reads (`tx_req_payload`, `rx_in_data`) and the selector bits the table writes as letters
(`v`, `l`, `r`), which the rule ignores. -/
inductive Instr where
  /-- CHECKSUM (40_checksum.md R76). -/
  | checksum (b : List Byte)
  /-- PACK (43_schema.md R123). -/
  | pack (x : List FieldValue)
  /-- UNPACK (43_schema.md R124). -/
  | unpack (p : List Byte)
  /-- ENCODE_FRAME (41_encode.md R85). -/
  | encodeFrame (p : List Byte)
  /-- ENCODE (41_encode.md R86). -/
  | encode (x : List FieldValue)
  /-- DECODE_FRAME (42_decode.md R99). -/
  | decodeFrame (b : List Byte)
  /-- DECODE (42_decode.md R105). -/
  | decode (b : List Byte)
  /-- TX_ACCEPT (41_encode.md R91), selector `00001r`; `payload` is the port value `tx_req_payload`. -/
  | txAccept (payload : Nat) (r : Bool)
  /-- TX_HDR (41_encode.md R92), selector `0001v1`. -/
  | txHdr (v : Bool)
  /-- TX_PAY (41_encode.md R93), selector `0010v1`. -/
  | txPay (v : Bool)
  /-- TX_CHK (41_encode.md R94), selector `0011v1`. -/
  | txChk (v : Bool)
  /-- TX_FTR (41_encode.md R95), selector `0100v1`. -/
  | txFtr (v : Bool)
  /-- TX_HOLD (41_encode.md R96), selector `00000r` or `0pppv0` with `ppp` in 001..100. -/
  | txHold (phase : TxPhase) (v r : Bool)
  /-- RX_BEAT (42_decode.md R113), selector `0010r`; `d` is `rx_in_data`. -/
  | rxBeat (d : Byte) (r : Bool)
  /-- RX_LAST (42_decode.md R114), selector `0011r`; `d` is `rx_in_data`. -/
  | rxLast (d : Byte) (r : Bool)
  /-- RX_TAKE (42_decode.md R115), selector `01vl1`. -/
  | rxTake (v l : Bool)
  /-- RX_HOLD (42_decode.md R116), selector `000lr` or `01vl0`. -/
  | rxHold (resValid v l r : Bool)
  /-- RESET (70_reset_and_hazards.md R151), `rst = 1`. -/
  | reset
  /-- FRAME (30_encoding.md R57): header, `P` payload bytes `p`, checksum byte `c`, footer. -/
  | frame (p : List Byte) (c : Byte)
  /-- FRAME_P0: `10101010 c 01010101`. -/
  | frameP0 (c : Byte)
  /-- FRAME_P2: 16 payload bits, offset 0 first, each byte most significant bit first. -/
  | frameP2 (p : BitVec 16) (c : Byte)
  /-- FRAME_P12: 96 payload bits (30_encoding.md R59(a)). -/
  | frameP12 (p : BitVec 96) (c : Byte)
  /-- FRAME_P16: 128 payload bits (30_encoding.md R59(b)). -/
  | frameP16 (p : BitVec 128) (c : Byte)
  /-- FIELD_I32_LITTLE (30_encoding.md R61): the four payload bytes, `b0` at field offset 0. -/
  | fieldI32Little (b0 b1 b2 b3 : Byte)
  /-- FIELD_I32_BIG (30_encoding.md R61). -/
  | fieldI32Big (b0 b1 b2 b3 : Byte)
  /-- FIELD_F32_LITTLE (30_encoding.md R61). -/
  | fieldF32Little (b0 b1 b2 b3 : Byte)
  /-- FIELD_F32_BIG (30_encoding.md R61). -/
  | fieldF32Big (b0 b1 b2 b3 : Byte)
  /-- FIELD_BYTES_N (30_encoding.md R61): `n >= 1` bytes in index order. -/
  | fieldBytesN (a : List Byte)
  /-- BEAT_TX_OUT (30_encoding.md R63): `tx_out_first`, `tx_out_last`, `tx_out_data`. -/
  | beatTxOut (first last : Bool) (data : Byte)
  /-- BEAT_RX_IN (30_encoding.md R63): `rx_in_last`, `rx_in_data`. -/
  | beatRxIn (last : Bool) (data : Byte)
  /-- RES_OK (30_encoding.md R65), code 0. -/
  | resOk
  /-- RES_LENGTH_MISMATCH (30_encoding.md R65), code 1. -/
  | resLengthMismatch
  /-- RES_BAD_HEADER (30_encoding.md R65), code 2. -/
  | resBadHeader
  /-- RES_BAD_FOOTER (30_encoding.md R65), code 3. -/
  | resBadFooter
  /-- RES_CHECKSUM_MISMATCH (30_encoding.md R65), code 4. -/
  | resChecksumMismatch
  /-- RES_RESERVED_5 (30_encoding.md R70). -/
  | resReserved5
  /-- RES_RESERVED_6 (30_encoding.md R70). -/
  | resReserved6
  /-- RES_RESERVED_7 (30_encoding.md R70). -/
  | resReserved7
  /-- PHASE_T_IDLE (30_encoding.md R66), 0. -/
  | phaseTIdle
  /-- PHASE_T_HDR (30_encoding.md R66), 1. -/
  | phaseTHdr
  /-- PHASE_T_PAY (30_encoding.md R66), 2. -/
  | phaseTPay
  /-- PHASE_T_CHK (30_encoding.md R66), 3. -/
  | phaseTChk
  /-- PHASE_T_FTR (30_encoding.md R66), 4. -/
  | phaseTFtr
  /-- PHASE_RESERVED_5 (30_encoding.md R70). -/
  | phaseReserved5
  /-- PHASE_RESERVED_6 (30_encoding.md R70). -/
  | phaseReserved6
  /-- PHASE_RESERVED_7 (30_encoding.md R70). -/
  | phaseReserved7
  deriving DecidableEq, Repr

/-- The spaces of bit patterns of spec/opcode_table.json: within one of them a word has at most one meaning; words
of two of them may be equal, since they are bits of different ports (log 10). -/
inductive Format where
  | txSelect
  | rxSelect
  | rst
  | frame
  | frameP0
  | frameP2
  | frameP12
  | frameP16
  | fieldI32Little
  | fieldI32Big
  | fieldF32Little
  | fieldF32Big
  | fieldBytes
  | beatTxOut
  | beatRxIn
  | resultCode
  | txPhase
  deriving DecidableEq, Repr

/-- The `level` column of spec/opcode_table.json: a function-level operation, a port-level step, a data format. -/
inductive Level where
  | function
  | port
  | data
  deriving DecidableEq, Repr

end Sys2Proof
end

