-- ==== Sys2Proof/WellFormed.lean ====
section
/-! DEFINITION. WellFormed.lean: which configurations are legal instances of the block (00_scope.md R4 to R8) and
which instructions are well formed for an instance. -/

namespace Sys2Proof

/-- `BYTES(0)` is refused (30_encoding.md R60, decision D15); the other types are always legal. -/
def FieldType.wf : FieldType → Bool
  | .i32 => true
  | .f32 => true
  | .bytes n => decide (1 ≤ n)

/-- A legal instance: every field type legal, the widths sum to `P` (00_scope.md R6, 43_schema.md R121), and
`ACC_W >= 8` (00_scope.md R8). Every `P >= 0`, every `HEADER` and `FOOTER` and both byte orders are legal. -/
def Config.wf (c : Config) : Bool :=
  c.schema.all (fun f => f.ty.wf) && decide (Schema.width c.schema = c.P) && decide (8 ≤ c.accW)

/-- A field value of the field's type: any 32-bit pattern, or exactly `n` bytes (43_schema.md R122). -/
def FieldValue.conforms : FieldValue → FieldType → Bool
  | .i32 _, .i32 => true
  | .f32 _, .f32 => true
  | .bytes a, .bytes n => decide (a.length = n)
  | _, _ => false

/-- A payload value: "one value per field, in field order" (43_schema.md R122). -/
def Schema.admits : Schema → List FieldValue → Bool
  | [], [] => true
  | f :: fs, x :: xs => x.conforms f.ty && Schema.admits fs xs
  | _, _ => false

/-- Well-formedness of an instruction for an instance. A function-level argument is well typed; a TX_ACCEPT payload
fits the `8 * P` bits of its port; a hold's selector bits are those of a hold; a FRAME has `P` payload bytes; a byte
array has at least one byte. -/
def Instr.wf (c : Config) : Instr → Bool
  | .checksum _ => true
  | .pack x => c.schema.admits x
  | .unpack p => decide (p.length = c.P)
  | .encodeFrame p => decide (p.length = c.P)
  | .encode x => c.schema.admits x
  | .decodeFrame _ => true
  | .decode _ => true
  | .txAccept payload _ => decide (payload < 256 ^ c.P)
  | .txHdr _ => true
  | .txPay _ => true
  | .txChk _ => true
  | .txFtr _ => true
  | .txHold phase v r => if phase = .tIdle then !v else !r
  | .rxBeat _ _ => true
  | .rxLast _ _ => true
  | .rxTake _ _ => true
  | .rxHold resValid v _ r => if resValid then !r else !v
  | .reset => true
  | .frame p _ => decide (p.length = c.P)
  | .frameP0 _ => true
  | .frameP2 _ _ => true
  | .frameP12 _ _ => true
  | .frameP16 _ _ => true
  | .fieldI32Little _ _ _ _ => true
  | .fieldI32Big _ _ _ _ => true
  | .fieldF32Little _ _ _ _ => true
  | .fieldF32Big _ _ _ _ => true
  | .fieldBytesN a => decide (1 ≤ a.length)
  | .beatTxOut _ _ _ => true
  | .beatRxIn _ _ => true
  | .resOk => true
  | .resLengthMismatch => true
  | .resBadHeader => true
  | .resBadFooter => true
  | .resChecksumMismatch => true
  | .resReserved5 => true
  | .resReserved6 => true
  | .resReserved7 => true
  | .phaseTIdle => true
  | .phaseTHdr => true
  | .phaseTPay => true
  | .phaseTChk => true
  | .phaseTFtr => true
  | .phaseReserved5 => true
  | .phaseReserved6 => true
  | .phaseReserved7 => true

end Sys2Proof
end

