-- ==== Sys2Proof/Decode.lean ====
section
/-! DEFINITION. Decode.lean: from bits to an instruction and back, by the rows of spec/opcode_table.json. The rows of
one port's selector are a table of (mask, match) as the opcode table gives them; the data formats follow
30_encoding.md R57 to R66. `decode` is total on any bytes and rejects by name; `encode` is written from the same
rows. -/

namespace Sys2Proof

/-! ### Bytes and numbers -/

/-- `n` bytes of `v`, least significant first. -/
def leBytes : Nat → Nat → List Byte
  | 0, _ => []
  | n + 1, v => BitVec.ofNat 8 v :: leBytes n (v / 256)

/-- The number whose bytes, least significant first, are the list. -/
def leValue : List Byte → Nat
  | [] => 0
  | b :: bs => b.toNat + 256 * leValue bs

/-- `n` bytes of `v`, most significant first: how the table writes a frame or a field ("first byte first, each byte
msb first"). -/
def beBytes (n v : Nat) : List Byte := (leBytes n v).reverse

/-- The number whose bytes, most significant first, are the list. -/
def beValue (bs : List Byte) : Nat := leValue bs.reverse

/-! ### Levels and formats -/

/-- The number of a phase (30_encoding.md R66). -/
def TxPhase.code : TxPhase → Nat
  | .tIdle => 0
  | .tHdr => 1
  | .tPay => 2
  | .tChk => 3
  | .tFtr => 4

/-- The number of a result code (30_encoding.md R65). -/
def ResultCode.code : ResultCode → Nat
  | .ok => 0
  | .lengthMismatch => 1
  | .badHeader => 2
  | .badFooter => 3
  | .checksumMismatch => 4

/-- The format a row's word is in; none for a function-level operation, which has "no bit encoding, selected by
being called" (30_encoding.md R67). -/
def Instr.format : Instr → Option Format
  | .checksum _ => none
  | .pack _ => none
  | .unpack _ => none
  | .encodeFrame _ => none
  | .encode _ => none
  | .decodeFrame _ => none
  | .decode _ => none
  | .txAccept _ _ => some .txSelect
  | .txHdr _ => some .txSelect
  | .txPay _ => some .txSelect
  | .txChk _ => some .txSelect
  | .txFtr _ => some .txSelect
  | .txHold _ _ _ => some .txSelect
  | .rxBeat _ _ => some .rxSelect
  | .rxLast _ _ => some .rxSelect
  | .rxTake _ _ => some .rxSelect
  | .rxHold _ _ _ _ => some .rxSelect
  | .reset => some .rst
  | .frame _ _ => some .frame
  | .frameP0 _ => some .frameP0
  | .frameP2 _ _ => some .frameP2
  | .frameP12 _ _ => some .frameP12
  | .frameP16 _ _ => some .frameP16
  | .fieldI32Little _ _ _ _ => some .fieldI32Little
  | .fieldI32Big _ _ _ _ => some .fieldI32Big
  | .fieldF32Little _ _ _ _ => some .fieldF32Little
  | .fieldF32Big _ _ _ _ => some .fieldF32Big
  | .fieldBytesN _ => some .fieldBytes
  | .beatTxOut _ _ _ => some .beatTxOut
  | .beatRxIn _ _ => some .beatRxIn
  | .resOk => some .resultCode
  | .resLengthMismatch => some .resultCode
  | .resBadHeader => some .resultCode
  | .resBadFooter => some .resultCode
  | .resChecksumMismatch => some .resultCode
  | .resReserved5 => some .resultCode
  | .resReserved6 => some .resultCode
  | .resReserved7 => some .resultCode
  | .phaseTIdle => some .txPhase
  | .phaseTHdr => some .txPhase
  | .phaseTPay => some .txPhase
  | .phaseTChk => some .txPhase
  | .phaseTFtr => some .txPhase
  | .phaseReserved5 => some .txPhase
  | .phaseReserved6 => some .txPhase
  | .phaseReserved7 => some .txPhase

/-- Whether a format is a data format (its words are read as data) or a port's selector (its words select a step). -/
def Format.isData : Format → Bool
  | .txSelect => false
  | .rxSelect => false
  | .rst => false
  | .frame => true
  | .frameP0 => true
  | .frameP2 => true
  | .frameP12 => true
  | .frameP16 => true
  | .fieldI32Little => true
  | .fieldI32Big => true
  | .fieldF32Little => true
  | .fieldF32Big => true
  | .fieldBytes => true
  | .beatTxOut => true
  | .beatRxIn => true
  | .resultCode => true
  | .txPhase => true

/-- The `level` column of the row. -/
def Instr.level (i : Instr) : Level :=
  match i.format with
  | none => .function
  | some f => if f.isData then .data else .port

/-! ### The selector and code tables -/

/-- One row of spec/opcode_table.json with a pattern: the width of its selector, its `mask` and `match` columns, and
the instruction it stands for, given the selector's bits and the port's data operand. -/
structure Row where
  width   : Nat
  mask    : Nat
  pattern : Nat
  build   : Nat → Nat → Instr

/-- Whether the selector's bits are in the row: no bit above the row's width, and the masked bits as the row says. -/
def Row.accepts (r : Row) (sel : Nat) : Bool := decide (sel < 2 ^ r.width) && (sel &&& r.mask == r.pattern)

/-- TX_ACCEPT `00001r`, TX_HDR `0001v1`, TX_PAY `0010v1`, TX_CHK `0011v1`, TX_FTR `0100v1`
(bits, msb first: `rst`, `tx_phase[2:0]`, `tx_req_valid`, `tx_out_ready`). -/
def txStepRows : List Row :=
  [ ⟨6, 0x3E, 0x02, fun sel data => .txAccept data (sel.testBit 0)⟩,
    ⟨6, 0x3D, 0x05, fun sel _ => .txHdr (sel.testBit 1)⟩,
    ⟨6, 0x3D, 0x09, fun sel _ => .txPay (sel.testBit 1)⟩,
    ⟨6, 0x3D, 0x0D, fun sel _ => .txChk (sel.testBit 1)⟩,
    ⟨6, 0x3D, 0x11, fun sel _ => .txFtr (sel.testBit 1)⟩ ]

/-- TX_HOLD: "selector 00000r, or 0pppv0 with ppp in 001..100". -/
def txHoldRows : List Row :=
  [ ⟨6, 0x3E, 0x00, fun sel _ => .txHold .tIdle false (sel.testBit 0)⟩,
    ⟨6, 0x3D, 0x04, fun sel _ => .txHold .tHdr (sel.testBit 1) false⟩,
    ⟨6, 0x3D, 0x08, fun sel _ => .txHold .tPay (sel.testBit 1) false⟩,
    ⟨6, 0x3D, 0x0C, fun sel _ => .txHold .tChk (sel.testBit 1) false⟩,
    ⟨6, 0x3D, 0x10, fun sel _ => .txHold .tFtr (sel.testBit 1) false⟩ ]

/-- RX_BEAT `0010r`, RX_LAST `0011r`, RX_TAKE `01vl1` (bits, msb first: `rst`, `rx_res_valid`, `rx_in_valid`,
`rx_in_last`, `rx_res_ready`). -/
def rxStepRows : List Row :=
  [ ⟨5, 0x1E, 0x04, fun sel data => .rxBeat (BitVec.ofNat 8 data) (sel.testBit 0)⟩,
    ⟨5, 0x1E, 0x06, fun sel data => .rxLast (BitVec.ofNat 8 data) (sel.testBit 0)⟩,
    ⟨5, 0x19, 0x09, fun sel _ => .rxTake (sel.testBit 2) (sel.testBit 1)⟩ ]

/-- RX_HOLD: "selector 000lr or 01vl0". -/
def rxHoldRows : List Row :=
  [ ⟨5, 0x1C, 0x00, fun sel _ => .rxHold false false (sel.testBit 1) (sel.testBit 0)⟩,
    ⟨5, 0x19, 0x08, fun sel _ => .rxHold true (sel.testBit 2) (sel.testBit 1) false⟩ ]

/-- RESET: `rst = 1`. -/
def rstRows : List Row := [⟨1, 0x1, 0x1, fun _ _ => .reset⟩]

/-- The eight values of `rx_res_code[2:0]` (30_encoding.md R65, R70). -/
def resultRows : List Row :=
  [ ⟨3, 0x7, 0, fun _ _ => .resOk⟩,
    ⟨3, 0x7, 1, fun _ _ => .resLengthMismatch⟩,
    ⟨3, 0x7, 2, fun _ _ => .resBadHeader⟩,
    ⟨3, 0x7, 3, fun _ _ => .resBadFooter⟩,
    ⟨3, 0x7, 4, fun _ _ => .resChecksumMismatch⟩,
    ⟨3, 0x7, 5, fun _ _ => .resReserved5⟩,
    ⟨3, 0x7, 6, fun _ _ => .resReserved6⟩,
    ⟨3, 0x7, 7, fun _ _ => .resReserved7⟩ ]

/-- The eight values of `tx_phase[2:0]` (30_encoding.md R66, R70). -/
def phaseRows : List Row :=
  [ ⟨3, 0x7, 0, fun _ _ => .phaseTIdle⟩,
    ⟨3, 0x7, 1, fun _ _ => .phaseTHdr⟩,
    ⟨3, 0x7, 2, fun _ _ => .phaseTPay⟩,
    ⟨3, 0x7, 3, fun _ _ => .phaseTChk⟩,
    ⟨3, 0x7, 4, fun _ _ => .phaseTFtr⟩,
    ⟨3, 0x7, 5, fun _ _ => .phaseReserved5⟩,
    ⟨3, 0x7, 6, fun _ _ => .phaseReserved6⟩,
    ⟨3, 0x7, 7, fun _ _ => .phaseReserved7⟩ ]

/-- All rows of the TX unit's selector. -/
def txRows : List Row := txStepRows ++ txHoldRows

/-- All rows of the RX unit's selector. -/
def rxRows : List Row := rxStepRows ++ rxHoldRows

/-- The first row of a table that accepts the selector, applied to it. -/
def lookupRow (rows : List Row) (sel data : Nat) : Option Instr :=
  (rows.find? (fun r => r.accepts sel)).map (fun r => r.build sel data)

/-! ### Decode -/

/-- Why `decode` rejects a word. -/
inductive Reject where
  /-- The word has no bytes. -/
  | empty
  /-- No row of the format has this selector or code: a bit above its width, `rst = 1` in a unit's selector (RESET
  overrides every step, R151), a reserved `tx_phase` 5 to 7 (R70), or `rst = 0` where RESET is asked for. -/
  | noRow
  /-- The word has not as many bytes as its format. -/
  | wrongLength
  /-- The byte at frame offset 0 is not the format's header. -/
  | wrongHeader
  /-- The byte at frame offset `P + 2` is not the format's footer. -/
  | wrongFooter
  deriving DecidableEq, Repr

/-- A unit's port word: the selector in the first byte, the data operand of the port in the bytes above it, least
significant first (DESIGN CHOICE, log 11: the table gives the operand no bits). -/
def decodeSelector (rows : List Row) : List Byte → Except Reject Instr
  | [] => .error .empty
  | b :: operand =>
    match lookupRow rows b.toNat (leValue operand) with
    | some i => .ok i
    | none => .error .noRow

/-- A 3-bit code in one byte. -/
def decodeCode (rows : List Row) : List Byte → Except Reject Instr
  | [] => .error .empty
  | [b] =>
    match lookupRow rows b.toNat 0 with
    | some i => .ok i
    | none => .error .noRow
  | _ => .error .wrongLength

/-- The payload bytes and the checksum byte of a frame word of `n + 3` bytes (30_encoding.md R57). -/
def splitFrame (n : Nat) (header footer : Byte) (bs : List Byte) : Except Reject (List Byte × Byte) :=
  if bs.length ≠ n + 3 then .error .wrongLength
  else if bs.getD 0 0 ≠ header then .error .wrongHeader
  else if bs.getD (n + 2) 0 ≠ footer then .error .wrongFooter
  else .ok ((bs.drop 1).take n, bs.getD (n + 1) 0)

/-- A four-byte field word. -/
def decodeField (build : Byte → Byte → Byte → Byte → Instr) : List Byte → Except Reject Instr
  | [b0, b1, b2, b3] => .ok (build b0 b1 b2 b3)
  | _ => .error .wrongLength

/-- The instruction a word of the given format stands for. The words of the FRAME instances P0, P2, P12 and P16 use
the default constants `0xAA` and `0x55`, as their rows do; FRAME uses the parameters of the instance. -/
def decode (c : Config) (f : Format) (bs : List Byte) : Except Reject Instr :=
  match f with
  | .txSelect => decodeSelector txRows bs
  | .rxSelect => decodeSelector rxRows bs
  | .rst => decodeCode rstRows bs
  | .frame => (splitFrame c.P c.header c.footer bs).map (fun x => .frame x.1 x.2)
  | .frameP0 => (splitFrame 0 0xAA 0x55 bs).map (fun x => .frameP0 x.2)
  | .frameP2 => (splitFrame 2 0xAA 0x55 bs).map (fun x => .frameP2 (BitVec.ofNat 16 (beValue x.1)) x.2)
  | .frameP12 => (splitFrame 12 0xAA 0x55 bs).map (fun x => .frameP12 (BitVec.ofNat 96 (beValue x.1)) x.2)
  | .frameP16 => (splitFrame 16 0xAA 0x55 bs).map (fun x => .frameP16 (BitVec.ofNat 128 (beValue x.1)) x.2)
  | .fieldI32Little => decodeField .fieldI32Little bs
  | .fieldI32Big => decodeField .fieldI32Big bs
  | .fieldF32Little => decodeField .fieldF32Little bs
  | .fieldF32Big => decodeField .fieldF32Big bs
  | .fieldBytes => if bs = [] then .error .empty else .ok (.fieldBytesN bs)
  | .beatTxOut =>
    match bs with
    | [d, m] => if m.toNat < 4 then .ok (.beatTxOut (m.getLsbD 1) (m.getLsbD 0) d) else .error .noRow
    | _ => .error .wrongLength
  | .beatRxIn =>
    match bs with
    | [d, m] => if m.toNat < 2 then .ok (.beatRxIn (m.getLsbD 0) d) else .error .noRow
    | _ => .error .wrongLength
  | .resultCode => decodeCode resultRows bs
  | .txPhase => decodeCode phaseRows bs

/-! ### Encode -/

/-- A selector or code byte. -/
def codeByte (n : Nat) : Byte := BitVec.ofNat 8 n

/-- The bytes of a frame word: header, payload, checksum byte, footer (30_encoding.md R57). -/
def frameWord (header footer : Byte) (p : List Byte) (c : Byte) : List Byte := header :: (p ++ [c, footer])

/-- The word of an instruction in its format; none for a function-level operation, which has no bit encoding. -/
def encode (c : Config) : Instr → Option (List Byte)
  | .checksum _ => none
  | .pack _ => none
  | .unpack _ => none
  | .encodeFrame _ => none
  | .encode _ => none
  | .decodeFrame _ => none
  | .decode _ => none
  | .txAccept payload r => some (codeByte (0x02 + r.toNat) :: leBytes c.P payload)
  | .txHdr v => some [codeByte (0x05 + 2 * v.toNat)]
  | .txPay v => some [codeByte (0x09 + 2 * v.toNat)]
  | .txChk v => some [codeByte (0x0D + 2 * v.toNat)]
  | .txFtr v => some [codeByte (0x11 + 2 * v.toNat)]
  | .txHold phase v r => some [codeByte (4 * phase.code + 2 * v.toNat + r.toNat)]
  | .rxBeat d r => some [codeByte (0x04 + r.toNat), d]
  | .rxLast d r => some [codeByte (0x06 + r.toNat), d]
  | .rxTake v l => some [codeByte (0x09 + 4 * v.toNat + 2 * l.toNat)]
  | .rxHold resValid v l r => some [codeByte (8 * resValid.toNat + 4 * v.toNat + 2 * l.toNat + r.toNat)]
  | .reset => some [codeByte 1]
  | .frame p k => some (frameWord c.header c.footer p k)
  | .frameP0 k => some (frameWord 0xAA 0x55 [] k)
  | .frameP2 p k => some (frameWord 0xAA 0x55 (beBytes 2 p.toNat) k)
  | .frameP12 p k => some (frameWord 0xAA 0x55 (beBytes 12 p.toNat) k)
  | .frameP16 p k => some (frameWord 0xAA 0x55 (beBytes 16 p.toNat) k)
  | .fieldI32Little b0 b1 b2 b3 => some [b0, b1, b2, b3]
  | .fieldI32Big b0 b1 b2 b3 => some [b0, b1, b2, b3]
  | .fieldF32Little b0 b1 b2 b3 => some [b0, b1, b2, b3]
  | .fieldF32Big b0 b1 b2 b3 => some [b0, b1, b2, b3]
  | .fieldBytesN a => some a
  | .beatTxOut first last data => some [data, codeByte (2 * first.toNat + last.toNat)]
  | .beatRxIn last data => some [data, codeByte last.toNat]
  | .resOk => some [codeByte 0]
  | .resLengthMismatch => some [codeByte 1]
  | .resBadHeader => some [codeByte 2]
  | .resBadFooter => some [codeByte 3]
  | .resChecksumMismatch => some [codeByte 4]
  | .resReserved5 => some [codeByte 5]
  | .resReserved6 => some [codeByte 6]
  | .resReserved7 => some [codeByte 7]
  | .phaseTIdle => some [codeByte 0]
  | .phaseTHdr => some [codeByte 1]
  | .phaseTPay => some [codeByte 2]
  | .phaseTChk => some [codeByte 3]
  | .phaseTFtr => some [codeByte 4]
  | .phaseReserved5 => some [codeByte 5]
  | .phaseReserved6 => some [codeByte 6]
  | .phaseReserved7 => some [codeByte 7]

/-! ### The host's view: a table word without its format -/

/-- The rows of at most eight bits in the order of spec/opcode_table.json, the two holds (which have no pattern of
their own in the table) last. One word can be a word of several formats, bits of different ports; the first row
wins (DESIGN CHOICE, log 10). -/
def tableRows : List Row :=
  txStepRows ++ rxStepRows ++ rstRows ++ resultRows ++ phaseRows ++ txHoldRows ++ rxHoldRows

/-- What the decoder reads from a table word, numbered as the table numbers it: bit 0 the least significant of the
row's one word. A selector or a code is one byte; a beat is two, its data byte first; the frame and field rows write
the byte at the lowest offset first and so have it in their most significant bits. Operand bytes above `nbits` are
zero. Where a width belongs to several formats the first of the table is meant (log 10); at a selector's own width
(6, 5, 1 bits), a code's (3) or a beat's (10, 9) its own format is. -/
def decodeTableWord (nbits w : Nat) : Option Instr :=
  match nbits with
  | 1 => lookupRow rstRows w 0
  | 3 => lookupRow resultRows w 0
  | 5 => lookupRow rxRows w 0
  | 6 => lookupRow txRows w 0
  | 8 => lookupRow tableRows w 0
  | 9 => (decode .reference .beatRxIn (leBytes 2 w)).toOption
  | 10 => (decode .reference .beatTxOut (leBytes 2 w)).toOption
  | 16 => (decode .reference .beatTxOut (leBytes 2 w)).toOption
  | 24 => (decode .reference .frameP0 (beBytes 3 w)).toOption
  | 32 => (decode .reference .fieldI32Little (beBytes 4 w)).toOption
  | 40 => (decode .reference .frameP2 (beBytes 5 w)).toOption
  | 120 => (decode .reference .frameP12 (beBytes 15 w)).toOption
  | 152 => (decode .reference .frameP16 (beBytes 19 w)).toOption
  | _ => none

end Sys2Proof
end

