-- ==== Sys2Proof/Machine/State.lean ====
section
/-! DEFINITION. Machine/State.lean: the complete state of an instance, as plain data (10_state.md R14 to R30), with
the parameters it is built from and the environment's inputs that it reads; the reasons a step can stop; the state
right after reset (70_reset_and_hazards.md R152). -/

namespace Sys2Proof.Machine

/-- A P-byte buffer: (offset, byte) pairs, offsets strictly rising. An unlisted offset has never been written and
"holds no value" (10_state.md R23, R28); what a read of it gives is the free value `Config.unwrittenByte` (log 5). -/
abbrev Memory := List Host.Cell

/-- The canonical form of a buffer: offsets strictly rising. No listed byte can equal what an unlisted offset reads
as, since an unlisted offset has no value. -/
abbrev Memory.wf (m : Memory) : Prop := m.Pairwise (fun a b => a.1 < b.1)

/-- The input ports as they are sampled at one rising edge of `clk` (10_state.md R15 to R19). -/
structure PortIn where
  /-- `rst` (R15). -/
  rst          : Bool
  /-- `tx_req_valid` (R16). -/
  txReqValid   : Bool
  /-- `tx_req_payload` (R16), the port's `8 * P` bits as a number; bits above them are not on the port. -/
  txReqPayload : Nat
  /-- `tx_out_ready` (R17). -/
  txOutReady   : Bool
  /-- `rx_in_valid` (R18). -/
  rxInValid    : Bool
  /-- `rx_in_data` (R18). -/
  rxInData     : Byte
  /-- `rx_in_last` (R18). -/
  rxInLast     : Bool
  /-- `rx_res_ready` (R19). -/
  rxResReady   : Bool
  deriving DecidableEq, Repr

/-- An edge at which the environment drives nothing: no reset, no `valid`, no `ready`. -/
def PortIn.quiet : PortIn := ⟨false, false, 0, false, false, 0, false, false⟩

/-- One thing the environment does (log 3): a rising edge with its input values (30_encoding.md R74), a call of a
function-level operation (R67 "selected by being called"), or a datum handed over in one of the data formats. -/
inductive Event where
  | edge (p : PortIn)
  | call (i : Instr)
  | datum (f : Format) (bytes : List Byte)
  deriving DecidableEq, Repr

/-- The parts of a frame, read by the layout of 30_encoding.md R57; `valid` says that the checksum byte is the
checksum of the payload, and nothing of the instance's length or constants (log 14). -/
structure FrameView where
  header   : Byte
  payload  : List Byte
  checksum : Byte
  footer   : Byte
  valid    : Bool
  deriving DecidableEq, Repr

/-- What a function-level call returns to its caller, or a datum read in its format says (log 4, log 9). It is the
caller's, not a register of the block (10_state.md R13). -/
inductive Ret where
  | nothing
  | byte (b : Byte)
  | bytes (b : List Byte)
  | values (x : List FieldValue)
  | frameResult (r : FrameResult (List Byte))
  | payloadResult (r : FrameResult (List FieldValue))
  | frame (v : FrameView)
  | field (x : FieldValue)
  | beatOut (first last : Bool) (data : Byte)
  | beatIn (last : Bool) (data : Byte)
  | code (k : ResultCode)
  | phase (p : TxPhase)
  deriving DecidableEq, Repr

/-- The eleven registers of 10_state.md R14, the parameters of the instance (log 1), and the model's own fields
`resetSeen` (log 6), `script` (log 3) and `ret` (log 4). -/
structure State where
  /-- The parameters; no step changes them (00_scope.md R9). -/
  cfg        : Config
  /-- `tx_phase` (R20). -/
  txPhase    : TxPhase
  /-- `tx_idx` (R21): the payload offset of the byte presented in `T_PAY`. -/
  txIdx      : Nat
  /-- `tx_sum` (R22), `ACC_W` bits: kept below `2 ^ accW` (log 16). -/
  txSum      : Nat
  /-- `tx_buf[0 .. P-1]` (R23). -/
  txBuf      : Memory
  /-- `rx_cnt` (R24), saturating at `P + 3`. -/
  rxCnt      : Nat
  /-- `rx_sum` (R25), `ACC_W` bits. -/
  rxSum      : Nat
  /-- `rx_hdr_ok` (R26). -/
  rxHdrOk    : Bool
  /-- `rx_chk` (R27). -/
  rxChk      : Byte
  /-- `rx_buf[0 .. P-1]` (R28). -/
  rxBuf      : Memory
  /-- `rx_res_valid` (R29). -/
  rxResValid : Bool
  /-- `rx_res_code` (R30). -/
  rxResCode  : ResultCode
  /-- The model's own: a RESET step has been applied since power-up (70_reset_and_hazards.md R154(a); log 6).
  Edges alone depend on it. -/
  resetSeen  : Bool
  /-- The model's own: what the environment does next, first event first (log 3). -/
  script     : List Event
  /-- The model's own: the value last given to a caller (log 4). -/
  ret        : Ret
  deriving DecidableEq, Repr

/-- Why the machine stops. The block itself has no fault: the FrameErrors are ordinary results
(60_exceptions.md R140). -/
inductive Fault where
  /-- Raised by the meaning of a port-level step in a state that does not select it (41_encode.md R91 to R96,
  42_decode.md R113 to R116 "Selected when"); `step` never raises it. Safe (log 8). -/
  | notSelected
  deriving DecidableEq, Repr

/-- Why there is no next state. -/
inductive Refusal where
  /-- Raised by `exec` for an instruction without a meaning. Safe. -/
  | notModelled (mnemonic : String)
  /-- Raised by `step` and by PACK, UNPACK, ENCODE and DECODE: the configuration is no legal instance
  (00_scope.md R6 "a model refuses it when the configuration is built"). Safe (log 13). -/
  | illFormedConfig
  /-- Raised by PACK and ENCODE: the argument is no payload value of the schema (41_encode.md R89 "for well-typed
  input"; N27). Safe (log 13). -/
  | illTypedPayload
  /-- Raised by UNPACK, ENCODE_FRAME and FRAME: the byte sequence has not `P` payload bytes (41_encode.md R85
  "requires len(p) == P"). Safe (log 13). -/
  | wrongPayloadLength
  /-- Raised by FIELD_BYTES_N: a byte array of no bytes (30_encoding.md R60 "refuses BYTES(0)"). Safe (log 13). -/
  | zeroWidthField
  /-- Raised by RES_RESERVED_5, 6, 7: the code is never produced (30_encoding.md R70). Safe (log 18). -/
  | reservedResultCode
  /-- Raised by PHASE_RESERVED_5, 6, 7: the phase is never taken (30_encoding.md R70). Safe (log 18). -/
  | reservedPhase
  /-- Raised by `step`: an edge without `rst` before the first RESET step (70_reset_and_hazards.md R152 "no rule of
  this spec applies"; U7). Safe (log 6). -/
  | beforeReset
  /-- Raised by `step`: a call of something that is not a function-level operation (30_encoding.md R67: only
  function-level operations are selected by being called). Safe (log 3). -/
  | notCallable
  /-- Raised by `step`: a datum handed over in a format that is not a data format. Safe (log 3). -/
  | notData
  /-- Raised by `step`: the bytes are no word of their format. Safe (log 10). -/
  | undecodable (why : Reject)
  deriving DecidableEq, Repr

/-- The state of an instance right after reset (70_reset_and_hazards.md R151, R152), with nothing in the script. The
two buffers hold no value: nothing has written them. -/
def State.resetOf (c : Config) : State :=
  { cfg := c
    txPhase := .tIdle
    txIdx := 0
    txSum := 0
    txBuf := []
    rxCnt := 0
    rxSum := 0
    rxHdrOk := false
    rxChk := 0x00
    rxBuf := []
    rxResValid := false
    rxResCode := .ok
    resetSeen := true
    script := []
    ret := .nothing }

/-- The machine right after reset: the source's own instance (DESIGN CHOICE, log 2). -/
def State.reset : State := State.resetOf .reference

end Sys2Proof.Machine
end

