-- ==== Sys2Proof/Machine/Ops.lean ====
section
/-! DEFINITION. Machine/Ops.lean: the operations the meanings share: the two buffers, the checksum and its
accumulator, the placement of an accepted byte, delivering a result (the block's only "exception entry",
60_exceptions.md R140) and taking it (its only "return", R142), and the reset of the registers. -/

namespace Sys2Proof.Machine

/-! ### The buffers -/

/-- The byte an offset was last written with, if any. -/
def Memory.lookup : Memory → Nat → Option Byte
  | [], _ => none
  | (b, w) :: m, a => if b = a then some w else Memory.lookup m a

/-- Write one byte; the offsets stay strictly rising. -/
def Memory.write : Memory → Nat → Byte → Memory
  | [], a, v => [(a, v)]
  | (b, w) :: m, a, v =>
    if a < b then (a, v) :: (b, w) :: m
    else if a = b then (a, v) :: m
    else (b, w) :: Memory.write m a v

/-- What a read of one byte of a buffer gives: the byte last written, or the free value (log 5). -/
def Memory.read (b : Buffer) (m : Memory) (a : Nat) : Byte := (m.lookup a).getD (Config.unwrittenByte b a)

/-- The first `n` bytes of a buffer, in offset order. -/
def Memory.bytes (b : Buffer) (m : Memory) (n : Nat) : List Byte := (List.range n).map (m.read b)

/-- A buffer whose offsets `0, 1, ...` hold the listed bytes and that holds nothing else. -/
def Memory.ofBytes (p : List Byte) : Memory := p.zipIdx.map (fun x => (x.2, x.1))

/-! ### The checksum -/

/-- The unsigned sum of a byte sequence (20_memory.md R44, 40_checksum.md R76). -/
def byteSum : List Byte → Nat
  | [] => 0
  | b :: bs => b.toNat + byteSum bs

/-- CHECKSUM's function: the sum modulo 256 (40_checksum.md R76). -/
def checksum (b : List Byte) : Byte := BitVec.ofNat 8 (byteSum b % 256)

/-- One step of an accumulator of `w` bits (40_checksum.md R77). -/
def accumulate (w acc : Nat) (d : Byte) : Nat := (acc + d.toNat) % 2 ^ w

/-- The low 8 bits of an accumulator. -/
def lowByte (acc : Nat) : Byte := BitVec.ofNat 8 acc

/-! ### Outcomes -/

/-- A port-level step is taken in the states its rule selects it in; `exec` faults elsewhere (log 8). -/
def whenSelected (selected : Bool) (t : State) : Host.Outcome State Fault Refusal :=
  if selected then .next t else .fault .notSelected

/-- A function-level call returns `v` to its caller, a datum reads as `v`; no register changes (10_state.md R13). -/
def giveBack (s : State) (v : Ret) : Host.Outcome State Fault Refusal := .next { s with ret := v }

/-- PACK, UNPACK, ENCODE and DECODE need a legal schema (00_scope.md R6). -/
def withSchema (s : State) (k : Host.Outcome State Fault Refusal) : Host.Outcome State Fault Refusal :=
  if s.cfg.wf then k else .refused .illFormedConfig

/-! ### The RX unit's shared operations -/

/-- `place(rx_cnt, d)` of 42_decode.md section 3: the accepted byte `d` at offset `rx_cnt`. -/
def place (d : Byte) (s : State) : State :=
  if s.rxCnt = 0 then { s with rxHdrOk := d == s.cfg.header }
  else if s.rxCnt ≤ s.cfg.P then
    { s with rxBuf := s.rxBuf.write (s.rxCnt - 1) d, rxSum := accumulate s.cfg.accW s.rxSum d }
  else if s.rxCnt = s.cfg.P + 1 then { s with rxChk := d }
  else s

/-- A result is delivered, success or error alike: "Reporting an error changes exactly this and nothing more"
(60_exceptions.md R140, 42_decode.md R114). Nothing is saved and no control is transferred. -/
def deliverResult (code : ResultCode) (s : State) : State :=
  { s with rxResValid := true, rxResCode := code, rxCnt := 0, rxSum := 0, rxHdrOk := false }

/-- The result is taken and the validator is idle again, "with nothing to restore" (60_exceptions.md R142,
42_decode.md R115). -/
def takeResult (s : State) : State := { s with rxResValid := false, rxResCode := .ok }

/-! ### Reset -/

/-- The effect of RESET on every register (70_reset_and_hazards.md R151): the buffers are unchanged, the parameters
are not state. -/
def resetRegisters (s : State) : State :=
  { s with
    txPhase := .tIdle
    txIdx := 0
    txSum := 0
    rxCnt := 0
    rxSum := 0
    rxHdrOk := false
    rxChk := 0x00
    rxResValid := false
    rxResCode := .ok
    resetSeen := true }

end Sys2Proof.Machine
end

