-- ==== Sys2Proof/Machine/Operands.lean ====
section
/-! DEFINITION. Machine/Operands.lean: every operand form of the spec: the payload port's slices (10_state.md R16,
30_encoding.md R64), the selector words that the ports and the unit's state form at an edge (30_encoding.md R67), and
the images of field values in payload bytes (30_encoding.md R61, 43_schema.md R125 to R127). -/

namespace Sys2Proof.Machine

/-! ### The payload ports -/

/-- Payload byte `k` of a payload port value: bits `[8k+7 : 8k]` (10_state.md R16). -/
def portByte (v k : Nat) : Byte := BitVec.ofNat 8 (v / 256 ^ k)

/-- The `n` payload bytes of a payload port value, in payload-offset order. -/
def portBytes (n v : Nat) : List Byte := (List.range n).map (portByte v)

/-- The payload port value whose byte `k` is the `k`-th of the list (30_encoding.md R64). -/
def portValue (p : List Byte) : Nat := leValue p

/-! ### The selectors -/

/-- The TX unit's word at an edge: selector bits `rst, tx_phase[2:0], tx_req_valid, tx_out_ready`, then the
`8 * P` bits of `tx_req_payload`. -/
def txWord (n : Nat) (phase : TxPhase) (p : PortIn) : List Byte :=
  codeByte (32 * p.rst.toNat + 4 * phase.code + 2 * p.txReqValid.toNat + p.txOutReady.toNat)
    :: leBytes n p.txReqPayload

/-- The RX unit's word at an edge: selector bits `rst, rx_res_valid, rx_in_valid, rx_in_last, rx_res_ready`, then
`rx_in_data`. -/
def rxWord (resValid : Bool) (p : PortIn) : List Byte :=
  [codeByte (16 * p.rst.toNat + 8 * resValid.toNat + 4 * p.rxInValid.toNat + 2 * p.rxInLast.toNat
      + p.rxResReady.toNat), p.rxInData]

/-! ### Field images -/

/-- The four bytes of a pattern in the order given by `BYTE_ORDER` (30_encoding.md R61). -/
def wordImage : ByteOrder → Word32 → List Byte
  | .little, v => [v.extractLsb' 0 8, v.extractLsb' 8 8, v.extractLsb' 16 8, v.extractLsb' 24 8]
  | .big, v => [v.extractLsb' 24 8, v.extractLsb' 16 8, v.extractLsb' 8 8, v.extractLsb' 0 8]

/-- The pattern of four bytes given lowest field offset first, the inverse of `wordImage`. -/
def wordValue : ByteOrder → Byte → Byte → Byte → Byte → Word32
  | .little, b0, b1, b2, b3 => b3 ++ b2 ++ b1 ++ b0
  | .big, b0, b1, b2, b3 => b0 ++ b1 ++ b2 ++ b3

/-- `image(type, x)` (43_schema.md R125, R126, R127): a float is "moved exactly like an I32"; a byte array is the
same under both orders. -/
def fieldImage (o : ByteOrder) : FieldValue → List Byte
  | .i32 v => wordImage o v
  | .f32 v => wordImage o v
  | .bytes a => a

/-- The pattern of the first four bytes of a sequence. Only ever applied to sequences of at least four bytes: a
field is read at its full width from `P` bytes (43_schema.md R124). -/
def wordAt (o : ByteOrder) (p : List Byte) : Word32 :=
  wordValue o (p.getD 0 0) (p.getD 1 0) (p.getD 2 0) (p.getD 3 0)

/-- `value(type, bytes)`, the inverse of `fieldImage` (43_schema.md R125 to R127). -/
def fieldRead (o : ByteOrder) : FieldType → List Byte → FieldValue
  | .i32, p => .i32 (wordAt o p)
  | .f32, p => .f32 (wordAt o p)
  | .bytes n, p => .bytes (p.take n)

/-- `off_i`: the sum of the widths of the fields before field `i` (20_memory.md R41). -/
def fieldOffset (fs : Schema) (i : Nat) : Nat := Schema.width (fs.take i)

end Sys2Proof.Machine
end

