-- ==== Sys2Proof/Machine/Flags.lean ====
section
/-! DEFINITION. Machine/Flags.lean: the block's three flags (10_state.md R35). `rx_hdr_ok` is the comparison of the
first byte (in `place`); `rx_res_valid` and `rx_res_code` are the result decided here at the last byte of a buffer.
There are no arithmetic flags. -/

namespace Sys2Proof.Machine

/-- `code` of RX_LAST (42_decode.md R114), from the registers before the edge and the last byte `d`, in the source's
priority order length, header, footer, checksum (R106). -/
def resultCode (c : Config) (cnt : Nat) (hdrOk : Bool) (sum : Nat) (chk d : Byte) : ResultCode :=
  if cnt ≠ c.P + 2 then .lengthMismatch
  else if !hdrOk then .badHeader
  else if d ≠ c.footer then .badFooter
  else if lowByte sum ≠ chk then .checksumMismatch
  else .ok

/-- The result code of a FrameError kind (30_encoding.md R65, 60_exceptions.md R132). -/
def errorCode : FrameError → ResultCode
  | .lengthMismatch => .lengthMismatch
  | .badHeader => .badHeader
  | .badFooter => .badFooter
  | .checksumMismatch => .checksumMismatch

end Sys2Proof.Machine
end

