-- ==== Sys2Proof/Machine/Codec.lean ====
section
/-! DEFINITION. Machine/Codec.lean: the function level, which is normative (00_scope.md R3): pack, unpack,
encode_frame, decode_frame, encode, decode as total functions of an argument and the parameters. -/

namespace Sys2Proof.Machine

/-- `MemRead(off, n)`: the `n` bytes at offset `off` of a buffer (00_scope.md section 7). -/
def memRead (b : List Byte) (off n : Nat) : List Byte := (b.drop off).take n

/-- ENCODE_FRAME's function (41_encode.md R85): `[HEADER] ‖ p ‖ [checksum(p)] ‖ [FOOTER]`. -/
def encodeFrame (c : Config) (p : List Byte) : List Byte := [c.header] ++ p ++ [checksum p] ++ [c.footer]

/-- DECODE_FRAME's function (42_decode.md R99): four checks in this order, fail-fast, then extraction. -/
def decodeFrame (c : Config) (b : List Byte) : FrameResult (List Byte) :=
  if b.length ≠ c.P + 3 then .err .lengthMismatch
  else if memRead b 0 1 ≠ [c.header] then .err .badHeader
  else if memRead b (c.P + 2) 1 ≠ [c.footer] then .err .badFooter
  else if [checksum (memRead b 1 c.P)] ≠ memRead b (c.P + 1) 1 then .err .checksumMismatch
  else .ok (memRead b 1 c.P)

/-- PACK's function (43_schema.md R123): the images in schema order, contiguous, no padding (20_memory.md R41, R45).
The fields' types are those of the values; that they are the schema's is `Schema.admits`. -/
def packFields (o : ByteOrder) : List FieldValue → List Byte
  | [] => []
  | x :: xs => fieldImage o x ++ packFields o xs

/-- UNPACK's function (43_schema.md R124): each field read at its offset and full width, in schema order. -/
def unpackFields (o : ByteOrder) : Schema → List Byte → List FieldValue
  | [], _ => []
  | f :: fs, p => fieldRead o f.ty p :: unpackFields o fs (p.drop f.ty.width)

/-- `pack(SCHEMA, x)` of an instance. -/
def pack (c : Config) (x : List FieldValue) : List Byte := packFields c.byteOrder x

/-- `unpack(SCHEMA, p)` of an instance. -/
def unpack (c : Config) (p : List Byte) : List FieldValue := unpackFields c.byteOrder c.schema p

/-- ENCODE's function (41_encode.md R86): `encode_frame` after `pack`. -/
def encodePayload (c : Config) (x : List FieldValue) : List Byte := encodeFrame c (pack c x)

/-- DECODE's function (42_decode.md R105): `unpack` after `decode_frame`. -/
def decodePayload (c : Config) (b : List Byte) : FrameResult (List FieldValue) :=
  match decodeFrame c b with
  | .ok p => .ok (unpack c p)
  | .err e => .err e

end Sys2Proof.Machine
end

