-- ==== Sys2Proof/Machine/Formats.lean ====
section
/-! DEFINITION. Machine/Formats.lean: the meanings of the data-format rows. A datum read in its format gives its
fields to the reader and changes no register: the formats are not operations (30_encoding.md R67 "This is a closed
list"; log 9). The rows with a fixed length, byte order or field width are read in every instance (DESIGN CHOICE, log 9
for the fields, log 14 for the frames). Reserved codes have no meaning and are refused (R70, U13; log 18). -/

namespace Sys2Proof.Machine

/-- The parts of a frame by the layout of 30_encoding.md R57, and whether its checksum byte is the checksum of its
payload. `valid` says no more than that: that the frame is one of this instance, of its length and with its constants
(R58, R69), is not part of it (DESIGN CHOICE, log 14). -/
def frameView (header footer : Byte) (p : List Byte) (k : Byte) : FrameView :=
  { header := header, payload := p, checksum := k, footer := footer, valid := k == checksum p }

/-- FRAME (30_encoding.md R57): a frame of this instance has exactly `P` payload bytes (R58). -/
def execFrame (p : List Byte) (k : Byte) (s : State) : Host.Outcome State Fault Refusal :=
  if p.length = s.cfg.P then giveBack s (.frame (frameView s.cfg.header s.cfg.footer p k))
  else .refused .wrongPayloadLength

/-- FRAME_P0 (30_encoding.md R57): "a valid frame has c = 00000000". DESIGN CHOICE (log 14): the
row is read in every instance, also where `P` is not 0 or the constants are others. -/
def execFrameP0 (k : Byte) (s : State) : Host.Outcome State Fault Refusal :=
  giveBack s (.frame (frameView 0xAA 0x55 [] k))

/-- FRAME_P2 (30_encoding.md R57). DESIGN CHOICE (log 14): read in every instance, also where `P` is not 2 or the
constants are others. -/
def execFrameP2 (p : BitVec 16) (k : Byte) (s : State) : Host.Outcome State Fault Refusal :=
  giveBack s (.frame (frameView 0xAA 0x55 (beBytes 2 p.toNat) k))

/-- FRAME_P12 (30_encoding.md R59(a)). DESIGN CHOICE (log 14): read in every instance, also where `P` is not 12 or the
constants are others. -/
def execFrameP12 (p : BitVec 96) (k : Byte) (s : State) : Host.Outcome State Fault Refusal :=
  giveBack s (.frame (frameView 0xAA 0x55 (beBytes 12 p.toNat) k))

/-- FRAME_P16 (30_encoding.md R59(b)). DESIGN CHOICE (log 14): read in every instance, also where `P` is not 16 or the
constants are others. -/
def execFrameP16 (p : BitVec 128) (k : Byte) (s : State) : Host.Outcome State Fault Refusal :=
  giveBack s (.frame (frameView 0xAA 0x55 (beBytes 16 p.toNat) k))

/-- FIELD_I32_LITTLE (30_encoding.md R61): the field value of the four payload bytes, lowest offset first. -/
def execFieldI32Little (b0 b1 b2 b3 : Byte) (s : State) : Host.Outcome State Fault Refusal :=
  giveBack s (.field (fieldRead .little .i32 [b0, b1, b2, b3]))

/-- FIELD_I32_BIG (30_encoding.md R61): the field value of the four payload bytes, lowest offset first. -/
def execFieldI32Big (b0 b1 b2 b3 : Byte) (s : State) : Host.Outcome State Fault Refusal :=
  giveBack s (.field (fieldRead .big .i32 [b0, b1, b2, b3]))

/-- FIELD_F32_LITTLE (30_encoding.md R61): the field value of the four payload bytes, lowest offset first. -/
def execFieldF32Little (b0 b1 b2 b3 : Byte) (s : State) : Host.Outcome State Fault Refusal :=
  giveBack s (.field (fieldRead .little .f32 [b0, b1, b2, b3]))

/-- FIELD_F32_BIG (30_encoding.md R61): the field value of the four payload bytes, lowest offset first. -/
def execFieldF32Big (b0 b1 b2 b3 : Byte) (s : State) : Host.Outcome State Fault Refusal :=
  giveBack s (.field (fieldRead .big .f32 [b0, b1, b2, b3]))

/-- FIELD_BYTES_N (30_encoding.md R61): `n` bytes in index order under both byte orders, `n >= 1`. -/
def execFieldBytesN (a : List Byte) (s : State) : Host.Outcome State Fault Refusal :=
  if 1 ≤ a.length then giveBack s (.field (fieldRead s.cfg.byteOrder (.bytes a.length) a))
  else .refused .zeroWidthField

/-- BEAT_TX_OUT (30_encoding.md R63): `tx_out_first`, `tx_out_last`, `tx_out_data[7:0]`. -/
def execBeatTxOut (first last : Bool) (data : Byte) (s : State) : Host.Outcome State Fault Refusal :=
  giveBack s (.beatOut first last data)

/-- BEAT_RX_IN (30_encoding.md R63): `rx_in_last`, `rx_in_data[7:0]`. -/
def execBeatRxIn (last : Bool) (data : Byte) (s : State) : Host.Outcome State Fault Refusal :=
  giveBack s (.beatIn last data)

/-- RES_OK (30_encoding.md R65). -/
def execResOk (s : State) : Host.Outcome State Fault Refusal := giveBack s (.code .ok)

/-- RES_LENGTH_MISMATCH (30_encoding.md R65). -/
def execResLengthMismatch (s : State) : Host.Outcome State Fault Refusal := giveBack s (.code .lengthMismatch)

/-- RES_BAD_HEADER (30_encoding.md R65). -/
def execResBadHeader (s : State) : Host.Outcome State Fault Refusal := giveBack s (.code .badHeader)

/-- RES_BAD_FOOTER (30_encoding.md R65). -/
def execResBadFooter (s : State) : Host.Outcome State Fault Refusal := giveBack s (.code .badFooter)

/-- RES_CHECKSUM_MISMATCH (30_encoding.md R65). -/
def execResChecksumMismatch (s : State) : Host.Outcome State Fault Refusal := giveBack s (.code .checksumMismatch)

/-- RES_RESERVED_5: "never produced by any rule" (30_encoding.md R70). -/
def execResReserved5 (_ : State) : Host.Outcome State Fault Refusal := .refused .reservedResultCode

/-- RES_RESERVED_6: "never produced by any rule" (30_encoding.md R70). -/
def execResReserved6 (_ : State) : Host.Outcome State Fault Refusal := .refused .reservedResultCode

/-- RES_RESERVED_7: "never produced by any rule" (30_encoding.md R70). -/
def execResReserved7 (_ : State) : Host.Outcome State Fault Refusal := .refused .reservedResultCode

/-- PHASE_T_IDLE (30_encoding.md R66). -/
def execPhaseTIdle (s : State) : Host.Outcome State Fault Refusal := giveBack s (.phase .tIdle)

/-- PHASE_T_HDR (30_encoding.md R66). -/
def execPhaseTHdr (s : State) : Host.Outcome State Fault Refusal := giveBack s (.phase .tHdr)

/-- PHASE_T_PAY (30_encoding.md R66). -/
def execPhaseTPay (s : State) : Host.Outcome State Fault Refusal := giveBack s (.phase .tPay)

/-- PHASE_T_CHK (30_encoding.md R66). -/
def execPhaseTChk (s : State) : Host.Outcome State Fault Refusal := giveBack s (.phase .tChk)

/-- PHASE_T_FTR (30_encoding.md R66). -/
def execPhaseTFtr (s : State) : Host.Outcome State Fault Refusal := giveBack s (.phase .tFtr)

/-- PHASE_RESERVED_5: "never produced by any rule" (30_encoding.md R70). -/
def execPhaseReserved5 (_ : State) : Host.Outcome State Fault Refusal := .refused .reservedPhase

/-- PHASE_RESERVED_6: "never produced by any rule" (30_encoding.md R70). -/
def execPhaseReserved6 (_ : State) : Host.Outcome State Fault Refusal := .refused .reservedPhase

/-- PHASE_RESERVED_7: "never produced by any rule" (30_encoding.md R70). -/
def execPhaseReserved7 (_ : State) : Host.Outcome State Fault Refusal := .refused .reservedPhase

end Sys2Proof.Machine
end

