-- ==== Sys2Proof/Machine/Function.lean ====
section
/-! DEFINITION. Machine/Function.lean: the meanings of the seven function-level operations. Each gives its value back
to the caller and touches no register: "the codec holds no mutable state between calls" (10_state.md R13). -/

namespace Sys2Proof.Machine

/-- CHECKSUM (40_checksum.md R76): total, no error. -/
def execChecksum (b : List Byte) (s : State) : Host.Outcome State Fault Refusal := giveBack s (.byte (checksum b))

/-- PACK (43_schema.md R123). An argument that is no payload value of the schema cannot be presented (N27, log 13). -/
def execPack (x : List FieldValue) (s : State) : Host.Outcome State Fault Refusal :=
  withSchema s <|
    if s.cfg.schema.admits x then giveBack s (.bytes (pack s.cfg x)) else .refused .illTypedPayload

/-- UNPACK (43_schema.md R124): `len(p) = P`. -/
def execUnpack (p : List Byte) (s : State) : Host.Outcome State Fault Refusal :=
  withSchema s <|
    if p.length = s.cfg.P then giveBack s (.values (unpack s.cfg p)) else .refused .wrongPayloadLength

/-- ENCODE_FRAME (41_encode.md R85): requires `len(p) == P`; no error path (R89). -/
def execEncodeFrame (p : List Byte) (s : State) : Host.Outcome State Fault Refusal :=
  if p.length = s.cfg.P then giveBack s (.bytes (encodeFrame s.cfg p)) else .refused .wrongPayloadLength

/-- ENCODE (41_encode.md R86). -/
def execEncode (x : List FieldValue) (s : State) : Host.Outcome State Fault Refusal :=
  withSchema s <|
    if s.cfg.schema.admits x then giveBack s (.bytes (encodePayload s.cfg x)) else .refused .illTypedPayload

/-- DECODE_FRAME (42_decode.md R99): defined for every byte sequence (R108). -/
def execDecodeFrame (b : List Byte) (s : State) : Host.Outcome State Fault Refusal :=
  giveBack s (.frameResult (decodeFrame s.cfg b))

/-- DECODE (42_decode.md R105): defined for every byte sequence. -/
def execDecode (b : List Byte) (s : State) : Host.Outcome State Fault Refusal :=
  withSchema s <| giveBack s (.payloadResult (decodePayload s.cfg b))

end Sys2Proof.Machine
end

