-- ==== Sys2Proof/Machine/Reset.lean ====
section
/-! DEFINITION. Machine/Reset.lean: the meaning of RESET, the only operation that acts on the block as a whole
(60_exceptions.md R150). -/

namespace Sys2Proof.Machine

/-- RESET (70_reset_and_hazards.md R151): it may be applied in any state, and any number of times. -/
def execReset (s : State) : Host.Outcome State Fault Refusal := .next (resetRegisters s)

end Sys2Proof.Machine
end

