-- ==== Sys2Proof/Machine/Rx.lean ====
section
/-! DEFINITION. Machine/Rx.lean: the meanings of the RX unit's three steps and its hold (42_decode.md R113 to
R117). -/

namespace Sys2Proof.Machine

/-- RX_BEAT (42_decode.md R113): the byte is placed and counted, saturating at `P + 3` (R117). -/
def execRxBeat (d : Byte) (s : State) : Host.Outcome State Fault Refusal :=
  whenSelected (!s.rxResValid) { place d s with rxCnt := min (s.rxCnt + 1) (s.cfg.P + 3) }

/-- RX_LAST (42_decode.md R114): the byte is placed, the result is decided from the registers before the edge and
delivered. -/
def execRxLast (d : Byte) (s : State) : Host.Outcome State Fault Refusal :=
  whenSelected (!s.rxResValid)
    (deliverResult (resultCode s.cfg s.rxCnt s.rxHdrOk s.rxSum s.rxChk d) (place d s))

/-- RX_TAKE (42_decode.md R115): "taking an error result and taking a success result are the same step". -/
def execRxTake (s : State) : Host.Outcome State Fault Refusal := whenSelected s.rxResValid (takeResult s)

/-- RX_HOLD (42_decode.md R116): "No register changes". Selected with no result pending and no byte offered, or with
a result pending that the application does not take. -/
def execRxHold (resValid v r : Bool) (s : State) : Host.Outcome State Fault Refusal :=
  whenSelected (s.rxResValid == resValid && (if resValid then !r else !v)) s

end Sys2Proof.Machine
end

