-- ==== Sys2Proof/Machine/Tx.lean ====
section
/-! DEFINITION. Machine/Tx.lean: the meanings of the TX unit's five steps and its hold (41_encode.md R91 to R96). The
selector bits that a rule ignores are not arguments of its meaning. -/

namespace Sys2Proof.Machine

/-- The payload byte presented in `T_PAY`: `tx_buf[tx_idx]` (10_state.md R31). -/
def presentedByte (s : State) : Byte := s.txBuf.read .tx s.txIdx

/-- TX_ACCEPT (41_encode.md R91): the payload on the port is copied, all `P` bytes at once. -/
def execTxAccept (payload : Nat) (s : State) : Host.Outcome State Fault Refusal :=
  whenSelected (s.txPhase == .tIdle)
    { s with txBuf := Memory.ofBytes (portBytes s.cfg.P payload), txSum := 0, txIdx := 0, txPhase := .tHdr }

/-- TX_HDR (41_encode.md R92): on to the payload, or straight to the checksum when there is none. -/
def execTxHdr (s : State) : Host.Outcome State Fault Refusal :=
  whenSelected (s.txPhase == .tHdr) { s with txPhase := if 1 ≤ s.cfg.P then .tPay else .tChk }

/-- TX_PAY (41_encode.md R93): the presented byte is added; the last one ends the payload. -/
def execTxPay (s : State) : Host.Outcome State Fault Refusal :=
  whenSelected (s.txPhase == .tPay)
    { s with
      txSum := accumulate s.cfg.accW s.txSum (presentedByte s)
      txIdx := if s.txIdx + 1 = s.cfg.P then 0 else s.txIdx + 1
      txPhase := if s.txIdx + 1 = s.cfg.P then .tChk else .tPay }

/-- TX_CHK (41_encode.md R94): `tx_sum` keeps its value. -/
def execTxChk (s : State) : Host.Outcome State Fault Refusal :=
  whenSelected (s.txPhase == .tChk) { s with txPhase := .tFtr }

/-- TX_FTR (41_encode.md R95): `tx_buf` keeps its contents. -/
def execTxFtr (s : State) : Host.Outcome State Fault Refusal :=
  whenSelected (s.txPhase == .tFtr) { s with txPhase := .tIdle, txSum := 0 }

/-- TX_HOLD (41_encode.md R96): "No register changes". Selected in `T_IDLE` without a request, or in another phase
without `tx_out_ready`. -/
def execTxHold (phase : TxPhase) (v r : Bool) (s : State) : Host.Outcome State Fault Refusal :=
  whenSelected (s.txPhase == phase && (if phase = .tIdle then !v else !r)) s

end Sys2Proof.Machine
end

