-- ==== Sys2Proof/Machine/Dispatch.lean ====
section
/-! DEFINITION. Machine/Dispatch.lean: one arm per row of spec/opcode_table.json. -/

namespace Sys2Proof.Machine

def exec (i : Instr) (s : State) : Host.Outcome State Fault Refusal :=
  match i with
  | .checksum b => Sys2Proof.Machine.execChecksum b s
  | .pack x => Sys2Proof.Machine.execPack x s
  | .unpack p => Sys2Proof.Machine.execUnpack p s
  | .encodeFrame p => Sys2Proof.Machine.execEncodeFrame p s
  | .encode x => Sys2Proof.Machine.execEncode x s
  | .decodeFrame b => Sys2Proof.Machine.execDecodeFrame b s
  | .decode b => Sys2Proof.Machine.execDecode b s
  | .txAccept payload _ => Sys2Proof.Machine.execTxAccept payload s
  | .txHdr _ => Sys2Proof.Machine.execTxHdr s
  | .txPay _ => Sys2Proof.Machine.execTxPay s
  | .txChk _ => Sys2Proof.Machine.execTxChk s
  | .txFtr _ => Sys2Proof.Machine.execTxFtr s
  | .txHold phase v r => Sys2Proof.Machine.execTxHold phase v r s
  | .rxBeat d _ => Sys2Proof.Machine.execRxBeat d s
  | .rxLast d _ => Sys2Proof.Machine.execRxLast d s
  | .rxTake _ _ => Sys2Proof.Machine.execRxTake s
  | .rxHold resValid v _ r => Sys2Proof.Machine.execRxHold resValid v r s
  | .reset => Sys2Proof.Machine.execReset s
  | .frame p k => Sys2Proof.Machine.execFrame p k s
  | .frameP0 k => Sys2Proof.Machine.execFrameP0 k s
  | .frameP2 p k => Sys2Proof.Machine.execFrameP2 p k s
  | .frameP12 p k => Sys2Proof.Machine.execFrameP12 p k s
  | .frameP16 p k => Sys2Proof.Machine.execFrameP16 p k s
  | .fieldI32Little b0 b1 b2 b3 => Sys2Proof.Machine.execFieldI32Little b0 b1 b2 b3 s
  | .fieldI32Big b0 b1 b2 b3 => Sys2Proof.Machine.execFieldI32Big b0 b1 b2 b3 s
  | .fieldF32Little b0 b1 b2 b3 => Sys2Proof.Machine.execFieldF32Little b0 b1 b2 b3 s
  | .fieldF32Big b0 b1 b2 b3 => Sys2Proof.Machine.execFieldF32Big b0 b1 b2 b3 s
  | .fieldBytesN a => Sys2Proof.Machine.execFieldBytesN a s
  | .beatTxOut first last data => Sys2Proof.Machine.execBeatTxOut first last data s
  | .beatRxIn last data => Sys2Proof.Machine.execBeatRxIn last data s
  | .resOk => Sys2Proof.Machine.execResOk s
  | .resLengthMismatch => Sys2Proof.Machine.execResLengthMismatch s
  | .resBadHeader => Sys2Proof.Machine.execResBadHeader s
  | .resBadFooter => Sys2Proof.Machine.execResBadFooter s
  | .resChecksumMismatch => Sys2Proof.Machine.execResChecksumMismatch s
  | .resReserved5 => Sys2Proof.Machine.execResReserved5 s
  | .resReserved6 => Sys2Proof.Machine.execResReserved6 s
  | .resReserved7 => Sys2Proof.Machine.execResReserved7 s
  | .phaseTIdle => Sys2Proof.Machine.execPhaseTIdle s
  | .phaseTHdr => Sys2Proof.Machine.execPhaseTHdr s
  | .phaseTPay => Sys2Proof.Machine.execPhaseTPay s
  | .phaseTChk => Sys2Proof.Machine.execPhaseTChk s
  | .phaseTFtr => Sys2Proof.Machine.execPhaseTFtr s
  | .phaseReserved5 => Sys2Proof.Machine.execPhaseReserved5 s
  | .phaseReserved6 => Sys2Proof.Machine.execPhaseReserved6 s
  | .phaseReserved7 => Sys2Proof.Machine.execPhaseReserved7 s

end Sys2Proof.Machine
end

