-- ==== Sys2Proof/Machine/Edge.lean ====
section
/-! DEFINITION. Machine/Edge.lean: what happens at one event of the script: a rising edge of `clk`, at which each unit
takes the step that its selector decodes to, or RESET acts on both (30_encoding.md R67, 10_state.md R15); a call; a
datum. -/

namespace Sys2Proof.Machine

/-- Decode a word and run the instruction it stands for. -/
def runWord (f : Format) (word : List Byte) (s : State) : Host.Outcome State Fault Refusal :=
  match decode s.cfg f word with
  | .ok i => exec i s
  | .error why => .refused (.undecodable why)

/-- Run `k` on the next state, if there is one. -/
def andThen (o : Host.Outcome State Fault Refusal) (k : State → Host.Outcome State Fault Refusal) :
    Host.Outcome State Fault Refusal :=
  match o with
  | .next t => k t
  | .fault r => .fault r
  | .refused r => .refused r

/-- One rising edge (10_state.md R15). With `rst = 1` RESET applies and the handshake inputs are ignored
(70_reset_and_hazards.md R151); before the first RESET no other rule applies (R152, log 6); otherwise the TX unit and
the RX unit each take their step. The units share no register, so their order is immaterial (20_memory.md R51,
log 7); both selectors are formed from the registers before the edge. -/
def clockEdge (p : PortIn) (s : State) : Host.Outcome State Fault Refusal :=
  if p.rst then exec .reset s
  else if !s.resetSeen then .refused .beforeReset
  else andThen (runWord .txSelect (txWord s.cfg.P s.txPhase p) s) (runWord .rxSelect (rxWord s.rxResValid p))

/-- A call of a function-level operation: "selected by being called" (30_encoding.md R67). DESIGN CHOICE (log 6): a
call before the first RESET step runs too, since the function level has no state to reset (10_state.md R13). -/
def callFunction (i : Instr) (s : State) : Host.Outcome State Fault Refusal :=
  match i.level with
  | .function => exec i s
  | .port => .refused .notCallable
  | .data => .refused .notCallable

/-- A datum handed over in one of the data formats (log 9). DESIGN CHOICE (log 6): a datum handed over before the first
RESET step is read too and not refused; what it reads as depends on no register. -/
def readDatum (f : Format) (word : List Byte) (s : State) : Host.Outcome State Fault Refusal :=
  if f.isData then runWord f word s else .refused .notData

/-- One event. Whether a RESET step has been applied matters to edges alone: R152 and U7 do not say whether a call or a
datum before it is refused, and the model runs both (DESIGN CHOICE, log 6). -/
def runEvent (e : Event) (s : State) : Host.Outcome State Fault Refusal :=
  match e with
  | .edge p => clockEdge p s
  | .call i => callFunction i s
  | .datum f word => readDatum f word s

/-- The next event of the script; when the script is exhausted, an edge at which the environment drives nothing
(log 3). -/
def nextEvent (s : State) : Event := s.script.headD (.edge .quiet)

/-- The state with the next event consumed. -/
def popEvent (s : State) : State := { s with script := s.script.tail }

/-- One event of a legal instance; an ill-formed configuration is refused (00_scope.md R6). -/
def runNext (s : State) : Host.Outcome State Fault Refusal :=
  if s.cfg.wf then runEvent (nextEvent s) (popEvent s) else .refused .illFormedConfig

/-! ### Presenting one instruction -/

/-- The bytes a captured payload must have for `T_PAY` to be selected (10_state.md R38 I3): the unwritten offsets
are written with zero operand bytes. -/
def fillBuffer (b : List Nat) (m : Memory) : Memory :=
  match b with
  | [] => m
  | k :: ks => fillBuffer ks (if (m.lookup k).isSome then m else m.write k 0)

/-- The state with an event put in front of the script. -/
def pushEvent (e : Event) (s : State) : State := { s with script := e :: s.script }

/-- The TX unit put in a phase, for an edge that is to select one of its steps; in `T_PAY` the payload has been
captured. -/
def inPhase (ph : TxPhase) (s : State) : State :=
  { s with
    txPhase := ph
    resetSeen := true
    txBuf := if ph = .tPay then fillBuffer (List.range s.cfg.P) s.txBuf else s.txBuf }

/-- The RX unit put where a result is pending or not, for an edge that is to select one of its steps. -/
def withResult (resValid : Bool) (s : State) : State := { s with rxResValid := resValid, resetSeen := true }

/-- `s` with the instruction `i` standing next: the event that selects it, and the unit's registers that its
selector reads (log 12). The other unit's inputs are quiet, so that it holds. -/
def present (i : Instr) (s : State) : State :=
  match i.level, i.format, encode s.cfg i with
  | .data, some f, some word => pushEvent (.datum f word) s
  | .function, _, _ => pushEvent (.call i) s
  | _, _, _ =>
    match i with
    | .txAccept payload r =>
      pushEvent (.edge { PortIn.quiet with txReqValid := true, txReqPayload := payload, txOutReady := r })
        (inPhase .tIdle s)
    | .txHdr v => pushEvent (.edge { PortIn.quiet with txReqValid := v, txOutReady := true }) (inPhase .tHdr s)
    | .txPay v => pushEvent (.edge { PortIn.quiet with txReqValid := v, txOutReady := true }) (inPhase .tPay s)
    | .txChk v => pushEvent (.edge { PortIn.quiet with txReqValid := v, txOutReady := true }) (inPhase .tChk s)
    | .txFtr v => pushEvent (.edge { PortIn.quiet with txReqValid := v, txOutReady := true }) (inPhase .tFtr s)
    | .txHold ph v r => pushEvent (.edge { PortIn.quiet with txReqValid := v, txOutReady := r }) (inPhase ph s)
    | .rxBeat d r =>
      pushEvent (.edge { PortIn.quiet with rxInValid := true, rxInData := d, rxResReady := r }) (withResult false s)
    | .rxLast d r =>
      pushEvent (.edge { PortIn.quiet with rxInValid := true, rxInData := d, rxInLast := true, rxResReady := r })
        (withResult false s)
    | .rxTake v l =>
      pushEvent (.edge { PortIn.quiet with rxInValid := v, rxInLast := l, rxResReady := true }) (withResult true s)
    | .rxHold rv v l r =>
      pushEvent (.edge { PortIn.quiet with rxInValid := v, rxInLast := l, rxResReady := r }) (withResult rv s)
    | _ => pushEvent (.edge { PortIn.quiet with rst := true }) s

end Sys2Proof.Machine
end

