-- ==== Sys2Proof/Machine/Step.lean ====
section
/-! DEFINITION. Machine/Step.lean: one step of the machine, and how the host places one table word for it. -/

namespace Sys2Proof.Machine

/-- One step: the next event of the script (Machine/Edge.lean). A rising edge steps both units. -/
def step (s : State) : Host.Outcome State Fault Refusal := runNext s

/-- `s` with the instruction of a table word standing next, so that the very next step runs it (log 12). A word that
is no table word is placed as a datum that `step` rejects by name. -/
def State.withFetchWord (s : State) (nbits w : Nat) : State :=
  match decodeTableWord nbits w with
  | some i => present i s
  | none => pushEvent (.datum .resultCode (leBytes (max 2 (nbits / 8)) w)) s

end Sys2Proof.Machine
end

