-- ==== Sys2Proof/Machine/Outputs.lean ====
section
/-! DEFINITION. Machine/Outputs.lean: the output ports as functions of the registers alone (10_state.md R31, R32), and
the loop-back wiring of 30_encoding.md R63. -/

namespace Sys2Proof.Machine

/-- The TX unit's output ports (10_state.md R16, R17). -/
structure TxOut where
  reqReady : Bool
  valid    : Bool
  first    : Bool
  last     : Bool
  data     : Byte
  deriving DecidableEq, Repr

/-- The RX unit's output ports (10_state.md R18, R19). -/
structure RxOut where
  inReady    : Bool
  resValid   : Bool
  resCode    : ResultCode
  resPayload : Nat
  deriving DecidableEq, Repr

/-- `tx_out_data` (10_state.md R31). -/
def txOutData (s : State) : Byte :=
  match s.txPhase with
  | .tIdle => 0x00
  | .tHdr => s.cfg.header
  | .tPay => presentedByte s
  | .tChk => lowByte s.txSum
  | .tFtr => s.cfg.footer

/-- The TX output equations (10_state.md R31). -/
def txOutputs (s : State) : TxOut :=
  { reqReady := s.txPhase == .tIdle
    valid := s.txPhase != .tIdle
    first := s.txPhase == .tHdr
    last := s.txPhase == .tFtr
    data := txOutData s }

/-- The RX output equations (10_state.md R32): the payload is masked unless a success is pending. -/
def rxOutputs (s : State) : RxOut :=
  { inReady := !s.rxResValid
    resValid := s.rxResValid
    resCode := s.rxResCode
    resPayload :=
      if s.rxResValid && s.rxResCode == .ok then portValue (s.rxBuf.bytes .rx s.cfg.P) else 0 }

/-- The inputs of an edge under the loop-back connection (30_encoding.md R63): the RX frame-side inputs and
`tx_out_ready` come from the outputs; the application-side inputs are free and `rst` is 0. -/
def loopback (reqValid : Bool) (reqPayload : Nat) (resReady : Bool) (s : State) : PortIn :=
  { rst := false
    txReqValid := reqValid
    txReqPayload := reqPayload
    txOutReady := (rxOutputs s).inReady
    rxInValid := (txOutputs s).valid
    rxInData := (txOutputs s).data
    rxInLast := (txOutputs s).last
    rxResReady := resReady }

end Sys2Proof.Machine
end

