-- ==== Sys2Proof/Safety.lean ====
section
/-! DEFINITION. Safety.lean: the terms claims are stated in: the invariants of 10_state.md R38, the idle predicates of
R39, runs of several steps, and what the environment sees of a run at the ports (30_encoding.md R63, 41_encode.md
R98, 42_decode.md R119). -/

namespace Sys2Proof.Machine

/-! ### Idle and the invariants -/

/-- The TX unit is idle (10_state.md R39). -/
abbrev TxIdle (s : State) : Prop := s.txPhase = .tIdle

/-- The RX unit is idle (10_state.md R39). -/
abbrev RxIdle (s : State) : Prop := s.rxCnt = 0 ∧ s.rxResValid = false

/-- The first `n` bytes of a buffer have been written. -/
def Memory.written (m : Memory) (n : Nat) : Prop := ∀ k, k < n → m.lookup k ≠ none

/-- No offset of `P` or beyond is stored: "No operation reads or writes outside the offsets" (20_memory.md R48). -/
def Memory.within (m : Memory) (n : Nat) : Prop := ∀ x ∈ m, x.1 < n

/-- I2 to I6 of 10_state.md R38, for the TX unit. I1 holds by type. `captured` is I3's last clause in the inductive
form: the payload is in the buffer in every phase of a frame. The widths are R22's, the buffer's form R23's. -/
structure TxInv (s : State) : Prop where
  idx_zero   : s.txPhase ≠ .tPay → s.txIdx = 0
  idx_lt     : s.txPhase = .tPay → s.txIdx < s.cfg.P
  captured   : s.txPhase ≠ .tIdle → s.txBuf.written s.cfg.P
  partialSum : s.txPhase = .tPay → s.txSum = byteSum (s.txBuf.bytes .tx s.txIdx) % 2 ^ s.cfg.accW
  fullSum    : s.txPhase = .tChk ∨ s.txPhase = .tFtr → lowByte s.txSum = checksum (s.txBuf.bytes .tx s.cfg.P)
  sum_zero   : s.txPhase = .tIdle ∨ s.txPhase = .tHdr → s.txSum = 0
  sum_lt     : s.txSum < 2 ^ s.cfg.accW
  buf_wf     : s.txBuf.wf
  buf_within : s.txBuf.within s.cfg.P

/-- I7 to I13 of 10_state.md R38, for the RX unit. I10 holds by type. I12's "bytes accepted at offsets 1 .. min" are
the bytes of `rx_buf` below `min(rx_cnt - 1, P)` (R28; DEDUCED, log 21). The widths are R25's. -/
structure RxInv (s : State) : Prop where
  cnt_le       : s.rxCnt ≤ s.cfg.P + 3
  pending_idle : s.rxResValid = true → s.rxCnt = 0 ∧ s.rxSum = 0 ∧ s.rxHdrOk = false
  code_ok      : s.rxResValid = false → s.rxResCode = .ok
  start        : s.rxCnt = 0 → s.rxSum = 0 ∧ s.rxHdrOk = false
  received     : 1 ≤ s.rxCnt → s.rxBuf.written (min (s.rxCnt - 1) s.cfg.P)
  partialSum   : 1 ≤ s.rxCnt →
    s.rxSum = byteSum (s.rxBuf.bytes .rx (min (s.rxCnt - 1) s.cfg.P)) % 2 ^ s.cfg.accW
  delivered    : s.rxResValid = true → s.rxResCode = .ok → s.rxBuf.written s.cfg.P
  sum_lt       : s.rxSum < 2 ^ s.cfg.accW
  buf_wf       : s.rxBuf.wf
  buf_within   : s.rxBuf.within s.cfg.P

/-- The invariants of 10_state.md R38. -/
structure Inv (s : State) : Prop where
  tx : TxInv s
  rx : RxInv s

/-! ### What an edge selects -/

/-- The TX step that 30_encoding.md R67's "selected when" column names for the state and the inputs of an edge with
`rst = 0`; the hold of 41_encode.md R96 where it names none. The payload is the port's `8 * P` bits. -/
def txSelected (n : Nat) (phase : TxPhase) (p : PortIn) : Instr :=
  match phase with
  | .tIdle =>
    if p.txReqValid then .txAccept (p.txReqPayload % 256 ^ n) p.txOutReady else .txHold .tIdle false p.txOutReady
  | .tHdr => if p.txOutReady then .txHdr p.txReqValid else .txHold .tHdr p.txReqValid false
  | .tPay => if p.txOutReady then .txPay p.txReqValid else .txHold .tPay p.txReqValid false
  | .tChk => if p.txOutReady then .txChk p.txReqValid else .txHold .tChk p.txReqValid false
  | .tFtr => if p.txOutReady then .txFtr p.txReqValid else .txHold .tFtr p.txReqValid false

/-- The RX step that 30_encoding.md R67's "selected when" column names; the hold of 42_decode.md R116 where it names
none. -/
def rxSelected (resValid : Bool) (p : PortIn) : Instr :=
  if resValid then
    if p.rxResReady then .rxTake p.rxInValid p.rxInLast else .rxHold true p.rxInValid p.rxInLast false
  else if p.rxInValid then
    if p.rxInLast then .rxLast p.rxInData p.rxResReady else .rxBeat p.rxInData p.rxResReady
  else .rxHold false false p.rxInLast p.rxResReady

/-! ### The two units' shares of the state -/

/-- Two states agree on the parameters and the TX unit's registers (10_state.md R14). -/
def SameTx (s t : State) : Prop :=
  s.cfg = t.cfg ∧ s.txPhase = t.txPhase ∧ s.txIdx = t.txIdx ∧ s.txSum = t.txSum ∧ s.txBuf = t.txBuf

/-- Two states agree on the parameters and the RX unit's registers (10_state.md R14). -/
def SameRx (s t : State) : Prop :=
  s.cfg = t.cfg ∧ s.rxCnt = t.rxCnt ∧ s.rxSum = t.rxSum ∧ s.rxHdrOk = t.rxHdrOk ∧ s.rxChk = t.rxChk ∧
    s.rxBuf = t.rxBuf ∧ s.rxResValid = t.rxResValid ∧ s.rxResCode = t.rxResCode

/-! ### Runs -/

/-- The state after `n` steps, if every one of them answers a next state. -/
def runSteps : Nat → State → Option State
  | 0, s => some s
  | n + 1, s =>
    match step s with
    | .next t => runSteps n t
    | .fault _ => none
    | .refused _ => none

/-- Whether an event is an edge with `rst = 1`. -/
def Event.isReset : Event → Bool
  | .edge p => p.rst
  | .call _ => false
  | .datum _ _ => false

/-- `rst` stays 0 in the next `n` steps. -/
def NoReset (n : Nat) (s : State) : Prop := ∀ e ∈ s.script.take n, e.isReset = false

/-- The inputs at the next step, if it is an edge with `rst = 0`. -/
def livePorts (s : State) : Option PortIn :=
  match nextEvent s with
  | .edge p => if p.rst then none else some p
  | .call _ => none
  | .datum _ _ => none

/-- What an observer of single steps sees along the next `n` steps, in order. -/
def along {α : Type} (seen : State → List α) : Nat → State → List α
  | 0, _ => []
  | n + 1, s =>
    seen s ++
      match step s with
      | .next t => along seen n t
      | .fault _ => []
      | .refused _ => []

/-! ### What the environment sees -/

/-- One beat on `tx_out` (30_encoding.md R63). -/
structure Beat where
  first : Bool
  last  : Bool
  data  : Byte
  deriving DecidableEq, Repr

/-- The beat transferred on `tx_out` at the next step, if one is: `valid` and `ready` both 1 (10_state.md R17). -/
def txTransfer (s : State) : List Beat :=
  match livePorts s with
  | some p =>
    if (txOutputs s).valid && p.txOutReady then
      [⟨(txOutputs s).first, (txOutputs s).last, (txOutputs s).data⟩]
    else []
  | none => []

/-- The payload taken on `tx_req` at the next step, if one is (10_state.md R16). -/
def txRequest (s : State) : List (List Byte) :=
  match livePorts s with
  | some p => if (txOutputs s).reqReady && p.txReqValid then [portBytes s.cfg.P p.txReqPayload] else []
  | none => []

/-- The byte accepted on `rx_in` at the next step, if one is, with its `last` marker (10_state.md R18). -/
def rxAccept (s : State) : List (Bool × Byte) :=
  match livePorts s with
  | some p => if (rxOutputs s).inReady && p.rxInValid then [(p.rxInLast, p.rxInData)] else []
  | none => []

/-- The result taken on `rx_res` at the next step, if one is (10_state.md R19). -/
def rxTaken (s : State) : List (ResultCode × Nat) :=
  match livePorts s with
  | some p =>
    if (rxOutputs s).resValid && p.rxResReady then [((rxOutputs s).resCode, (rxOutputs s).resPayload)] else []
  | none => []

/-- All output ports at one instant. -/
def outputsSeen (s : State) : List (TxOut × RxOut) := [(txOutputs s, rxOutputs s)]

/-! ### Frames and buffers as beats -/

/-- The beats of `encode_frame(p)`: `first` exactly at offset 0, `last` exactly at offset `P + 2`
(30_encoding.md R63). -/
def frameBeats (c : Config) (p : List Byte) : List Beat :=
  (encodeFrame c p).zipIdx.map (fun x => ⟨x.2 == 0, x.2 == c.P + 2, x.1⟩)

/-- The beats of a buffer on `rx_in`: `last` exactly on its final byte (10_state.md R18). -/
def bufferBeats (b : List Byte) : List (Bool × Byte) := b.zipIdx.map (fun x => (x.2 + 1 == b.length, x.1))

/-- The complete buffers in a sequence of accepted bytes, after the bytes `acc` of a buffer not yet ended. -/
def buffersAfter (acc : List Byte) : List (Bool × Byte) → List (List Byte)
  | [] => []
  | (true, d) :: bs => (acc ++ [d]) :: buffersAfter [] bs
  | (false, d) :: bs => buffersAfter (acc ++ [d]) bs

/-- What `rx_res_code` and `rx_res_payload` show for a buffer: `decode_frame` of it (42_decode.md R119). -/
def resultOf (c : Config) (b : List Byte) : ResultCode × Nat :=
  match decodeFrame c b with
  | .ok p => (.ok, portValue p)
  | .err e => (errorCode e, 0)

/-- The state after an edge with the loop-back wiring of 30_encoding.md R63. -/
def loopEdge (reqValid : Bool) (reqPayload : Nat) (resReady : Bool) (s : State) :
    Host.Outcome State Fault Refusal :=
  step { s with script := [.edge (loopback reqValid reqPayload resReady s)] }

/-- The state after `n` loop-back edges without a request and without taking a result. -/
def loopIdle : Nat → State → Option State
  | 0, s => some s
  | n + 1, s =>
    match loopEdge false 0 false s with
    | .next t => loopIdle n t
    | .fault _ => none
    | .refused _ => none

end Sys2Proof.Machine
end

