-- ==== Sys2Proof/Certificates/Slice0/Obligations.lean ====
section
/-! DEFINITION. Certificates/Slice0/Obligations.lean: the statements for the provers, in the order of
OBLIGATIONS.json. Each docstring names the rule it formalises; where a clause is the model's choice it says so. -/

open Sys2Proof Sys2Proof.Machine

/-! ## Reset, configuration -/

/-- 70_reset_and_hazards.md R151: RESET's effect on every register, its selection by `rst = 1` at an edge whatever
the handshake inputs are, and "the state is the same after one as after many". -/
def Obligations.ResetSetsTheRegistersAndKeepsTheBuffers : Prop :=
  (∀ s : State, exec .reset s = .next
    { s with
      txPhase := .tIdle, txIdx := 0, txSum := 0, rxCnt := 0, rxSum := 0, rxHdrOk := false, rxChk := 0x00,
      rxResValid := false, rxResCode := .ok, resetSeen := true }) ∧
  (∀ (s : State) (p : PortIn) (rest : List Event), s.cfg.wf = true → s.script = .edge p :: rest → p.rst = true →
    step s = exec .reset { s with script := rest }) ∧
  (∀ s t : State, exec .reset s = .next t → exec .reset t = .next t)

/-- 70_reset_and_hazards.md R152: the value of every register and output after a RESET step in any state, the buffers
unchanged; and in the state the model starts from, where the buffers hold no value. -/
def Obligations.ResetLeavesTheSpecifiedValues : Prop :=
  (∀ s : State, ∃ t, exec .reset s = .next t ∧
    t.txPhase = .tIdle ∧ t.txIdx = 0 ∧ t.txSum = 0 ∧ t.txBuf = s.txBuf ∧ t.rxCnt = 0 ∧ t.rxSum = 0 ∧
    t.rxHdrOk = false ∧ t.rxChk = 0x00 ∧ t.rxBuf = s.rxBuf ∧ t.rxResValid = false ∧ t.rxResCode = .ok ∧
    t.cfg = s.cfg ∧
    txOutputs t = { reqReady := true, valid := false, first := false, last := false, data := 0x00 } ∧
    rxOutputs t = { inReady := true, resValid := false, resCode := .ok, resPayload := 0 }) ∧
  (∀ c : Config,
    exec .reset (State.resetOf c) = .next (State.resetOf c) ∧
    ∀ k, (State.resetOf c).txBuf.lookup k = none ∧ (State.resetOf c).rxBuf.lookup k = none)

/-- 70_reset_and_hazards.md section 1 and U7: an edge without `rst` before the first RESET step has no meaning. That
the model refuses by this name is its choice (log 6). -/
def Obligations.EdgeBeforeTheFirstResetIsRefused : Prop :=
  ∀ (s : State) (p : PortIn) (rest : List Event), s.cfg.wf = true → s.resetSeen = false →
    s.script = .edge p :: rest → p.rst = false → step s = .refused .beforeReset

/-- 00_scope.md section 4 and decision D15: an instance whose field widths do not sum to `P`, that has a `BYTES(0)`
field, or whose accumulator is narrower than 8 bits, is refused, whatever the event. The name of the refusal is the
model's (log 13). -/
def Obligations.IllFormedInstanceIsRefused : Prop :=
  ∀ s : State,
    (Schema.width s.cfg.schema ≠ s.cfg.P ∨ (∃ f ∈ s.cfg.schema, f.ty = .bytes 0) ∨ s.cfg.accW < 8) →
    step s = .refused .illFormedConfig

/-- 00_scope.md R9: "no sequence of inputs changes one". -/
def Obligations.NoRunChangesAParameter : Prop :=
  (∀ (i : Instr) (s t : State), exec i s = .next t → t.cfg = s.cfg) ∧
  (∀ (n : Nat) (s t : State), runSteps n s = some t → t.cfg = s.cfg)

/-! ## Encodings -/

/-- 30_encoding.md sections 1 to 5: for every well-formed instruction that has a word, decoding its word in its format
gives it back, with every operand at every value. The layout of the operand bytes above a selector is the model's
(log 11). -/
def Obligations.DecodeOfEncodeIsTheInstruction : Prop :=
  ∀ (c : Config) (i : Instr) (f : Format) (w : List Byte),
    i.wf c = true → i.format = some f → encode c i = some w → decode c f w = .ok i

/-- 30_encoding.md sections 1 to 5: a word that decodes is the word of what it decodes to. In a unit's selector the
operand bytes that the selected step ignores may differ, so there the selector byte is the same. -/
def Obligations.EncodeOfDecodeIsTheWord : Prop :=
  ∀ (c : Config) (f : Format) (w : List Byte) (i : Instr), decode c f w = .ok i →
    i.format = some f ∧ (f.isData = true → i.wf c = true) ∧
    ∃ w', encode c i = some w' ∧ w'.head? = w.head? ∧ (f.isData = true ∨ f = .rst → w' = w)

/-- 30_encoding.md R67: for each unit the selecting conditions, with the hold, are mutually exclusive and cover every
case: each selector with `rst = 0` and a phase 0 to 4 is in exactly one row, and no other selector is in any. -/
def Obligations.SelectorRowsPartitionTheSelectors : Prop :=
  (∀ sel, sel < 64 → (txRows.filter (fun r => r.accepts sel)).length = if sel < 20 then 1 else 0) ∧
  (∀ sel, sel < 32 → (rxRows.filter (fun r => r.accepts sel)).length = if sel < 16 then 1 else 0)

/-- Words written out from spec/opcode_table.json decode to the rows they are words of, and words of no row are
rejected by name. -/
def Obligations.TableWordsDecodeToTheirRows : Prop :=
  decode .reference .txSelect [0x02, 0x01, 0x02] = .ok (.txAccept 0x0201 false) ∧
  decode .reference .txSelect [0x0B] = .ok (.txPay true) ∧
  decode .reference .rxSelect [0x06, 0x55] = .ok (.rxLast 0x55 false) ∧
  decode .reference .rxSelect [0x0B] = .ok (.rxTake false true) ∧
  decode .reference .rst [0x01] = .ok .reset ∧
  decode .reference .frameP2 [0xAA, 0x01, 0x02, 0x03, 0x55] = .ok (.frameP2 0x0102 0x03) ∧
  decode .reference .beatTxOut [0x55, 0x01] = .ok (.beatTxOut false true 0x55) ∧
  decode .reference .resultCode [0x04] = .ok .resChecksumMismatch ∧
  decode .reference .txPhase [0x02] = .ok .phaseTPay ∧
  decode .reference .txSelect [0x14] = .error .noRow ∧
  decode .reference .txSelect [0x22] = .error .noRow ∧
  decode .reference .rxSelect [0x10] = .error .noRow ∧
  decode .reference .resultCode [0x08] = .error .noRow ∧
  decode .reference .frameP2 [0xAB, 0x01, 0x02, 0x03, 0x55] = .error .wrongHeader

/-- 30_encoding.md R67, the "selected when" column of the nine unit steps, and the holds of R96 and R116: the word that
the ports and the unit's registers form at an edge with `rst = 0` decodes to the step so selected (`txSelected` and
`rxSelected` in Safety.lean are that column). -/
def Obligations.EdgeSelectsTheStepOfTheTable : Prop :=
  ∀ (c : Config) (n : Nat) (phase : TxPhase) (resValid : Bool) (p : PortIn), p.rst = false →
    decode c .txSelect (txWord n phase p) = .ok (txSelected n phase p) ∧
    decode c .rxSelect (rxWord resValid p) = .ok (rxSelected resValid p)

/-- The machine runs what its next event decodes to: at an edge with `rst = 0` the TX unit's instruction and then the
RX unit's, at an edge with `rst = 1` RESET, at a call the operation called, at a datum the datum; an exhausted script
is an edge at which nothing is driven. The script and the order of the two units are the model's (logs 3 and 7), and
so is that a call or a datum runs before the first RESET step too (log 6). -/
def Obligations.StepRunsWhatTheNextEventDecodesTo : Prop :=
  (∀ (s : State) (p : PortIn) (rest : List Event) (i j : Instr),
    s.cfg.wf = true → s.resetSeen = true → s.script = .edge p :: rest → p.rst = false →
    decode s.cfg .txSelect (txWord s.cfg.P s.txPhase p) = .ok i →
    decode s.cfg .rxSelect (rxWord s.rxResValid p) = .ok j →
    step s = andThen (exec i { s with script := rest }) (exec j)) ∧
  (∀ (s : State) (p : PortIn) (rest : List Event), s.cfg.wf = true → s.script = .edge p :: rest → p.rst = true →
    step s = exec .reset { s with script := rest }) ∧
  (∀ (s : State) (i : Instr) (rest : List Event), s.cfg.wf = true → s.script = .call i :: rest →
    i.level = .function → step s = exec i { s with script := rest }) ∧
  (∀ (s : State) (f : Format) (w : List Byte) (i : Instr) (rest : List Event), s.cfg.wf = true →
    s.script = .datum f w :: rest → f.isData = true → decode s.cfg f w = .ok i →
    step s = exec i { s with script := rest }) ∧
  (∀ s : State, s.script = [] → step s = step { s with script := [.edge .quiet] })

/-- What is no call of a function-level operation, no datum in a data format, or no word of its format, is refused by
name (the model's, logs 3 and 10). -/
def Obligations.EventsOutsideTheFormatsAreRefused : Prop :=
  (∀ (s : State) (i : Instr) (rest : List Event), s.cfg.wf = true → s.script = .call i :: rest →
    i.level ≠ .function → step s = .refused .notCallable) ∧
  (∀ (s : State) (f : Format) (w : List Byte) (rest : List Event), s.cfg.wf = true →
    s.script = .datum f w :: rest → f.isData = false → step s = .refused .notData) ∧
  (∀ (s : State) (f : Format) (w : List Byte) (why : Reject) (rest : List Event), s.cfg.wf = true →
    s.script = .datum f w :: rest → f.isData = true → decode s.cfg f w = .error why →
    step s = .refused (.undecodable why))

/-- 60_exceptions.md section 8: "the step rules, which are total": after reset every edge of a legal instance answers
a next state, whatever the state and the inputs are. -/
def Obligations.EveryEdgeAfterResetCompletes : Prop :=
  ∀ (s : State) (p : PortIn) (rest : List Event), s.cfg.wf = true → s.resetSeen = true →
    s.script = .edge p :: rest → ∃ t, step s = .next t ∧ t.script = rest ∧ t.resetSeen = true

/-! ## The function level

The value a call gives back, or a datum reads as, stands in the model's own field `ret` (log 4). -/

/-- 40_checksum.md R76: total on every byte sequence, the unsigned sum modulo 256. -/
def Obligations.ChecksumIsTheByteSumModulo256 : Prop :=
  ∀ (b : List Byte) (s : State),
    exec (.checksum b) s = .next { s with ret := .byte (BitVec.ofNat 8 ((b.map BitVec.toNat).sum % 256)) }

/-- 40_checksum.md sections 1 and 2 (R77, R78): every accumulator of at least 8 bits, truncated at every step, ends
with the checksum in its low byte. -/
def Obligations.EveryAccumulatorWidthGivesTheChecksum : Prop :=
  ∀ (w : Nat) (b : List Byte), 8 ≤ w → lowByte (b.foldl (accumulate w) 0) = checksum b

/-- 40_checksum.md section 2 (R81): concatenation adds, and order does not matter. -/
def Obligations.ChecksumAddsAndIgnoresOrder : Prop :=
  (∀ a b : List Byte, checksum (a ++ b) = checksum a + checksum b) ∧
  (∀ a b : List Byte, a.Perm b → checksum a = checksum b)

/-- 40_checksum.md section 2 (R82): one changed byte is always detected. -/
def Obligations.OneChangedByteChangesTheChecksum : Prop :=
  ∀ (b : List Byte) (k : Nat) (v : Byte), k < b.length → b[k]? ≠ some v → checksum (b.set k v) ≠ checksum b

/-- 43_schema.md R123 with 20_memory.md section 1 (R41): PACK gives `P` bytes, with the image of each field's value at
the field's offset, at its exact width; on the payload port byte `k` is bits `[8k+7 : 8k]`; nothing else changes. -/
def Obligations.PackWritesEachFieldAtItsOffset : Prop :=
  ∀ (s : State) (x : List FieldValue), s.cfg.wf = true → s.cfg.schema.admits x = true →
    ∃ p : List Byte, exec (.pack x) s = .next { s with ret := .bytes p } ∧ p.length = s.cfg.P ∧
      (∀ (i : Nat) (f : FieldSpec) (v : FieldValue), s.cfg.schema[i]? = some f → x[i]? = some v →
        memRead p (fieldOffset s.cfg.schema i) f.ty.width = fieldImage s.cfg.byteOrder v) ∧
      ∀ k, k < s.cfg.P → p[k]? = some (BitVec.ofNat 8 (portValue p >>> (8 * k)))

/-- 43_schema.md R124: UNPACK reads each field at its offset and width, in schema order, and cannot fail on `P`
bytes; nothing else changes. -/
def Obligations.UnpackReadsEachFieldAtItsOffset : Prop :=
  ∀ (s : State) (p : List Byte), s.cfg.wf = true → p.length = s.cfg.P →
    ∃ x : List FieldValue, exec (.unpack p) s = .next { s with ret := .values x } ∧
      x.length = s.cfg.schema.length ∧
      ∀ (i : Nat) (f : FieldSpec), s.cfg.schema[i]? = some f →
        x[i]? = some (fieldRead s.cfg.byteOrder f.ty (memRead p (fieldOffset s.cfg.schema i) f.ty.width))

/-- 43_schema.md section 4 (R128): pack and unpack are inverse bijections. -/
def Obligations.PackAndUnpackAreInverse : Prop :=
  (∀ (c : Config) (x : List FieldValue), c.wf = true → c.schema.admits x = true → unpack c (pack c x) = x) ∧
  (∀ (c : Config) (p : List Byte), c.wf = true → p.length = c.P →
    c.schema.admits (unpack c p) = true ∧ pack c (unpack c p) = p)

/-- 41_encode.md R85, R86, R87: ENCODE_FRAME gives header, payload, checksum byte, footer, and ENCODE is that of the
packed payload; the length is always `P + 3`; nothing else changes. -/
def Obligations.EncodeBuildsTheFrame : Prop :=
  (∀ (s : State) (p : List Byte), p.length = s.cfg.P →
    ∃ f : List Byte, exec (.encodeFrame p) s = .next { s with ret := .bytes f } ∧
      f = [s.cfg.header] ++ p ++ [checksum p] ++ [s.cfg.footer] ∧ f.length = s.cfg.P + 3) ∧
  (∀ (s : State) (x : List FieldValue), s.cfg.wf = true → s.cfg.schema.admits x = true →
    ∃ f : List Byte, exec (.encode x) s = .next { s with ret := .bytes f } ∧
      f = [s.cfg.header] ++ pack s.cfg x ++ [checksum (pack s.cfg x)] ++ [s.cfg.footer] ∧
      f.length = s.cfg.P + 3)

/-- 42_decode.md R99 to R104: DECODE_FRAME is total, checks length, header, footer, checksum in this order, reports the
first failure only, and extracts the payload after all four; nothing else changes. -/
def Obligations.DecodeFrameReportsTheFirstFailedCheck : Prop :=
  ∀ (s : State) (b : List Byte), ∃ r : FrameResult (List Byte),
    exec (.decodeFrame b) s = .next { s with ret := .frameResult r } ∧
    (b.length ≠ s.cfg.P + 3 → r = .err .lengthMismatch) ∧
    (b.length = s.cfg.P + 3 → b[0]? ≠ some s.cfg.header → r = .err .badHeader) ∧
    (b.length = s.cfg.P + 3 → b[0]? = some s.cfg.header → b[s.cfg.P + 2]? ≠ some s.cfg.footer →
      r = .err .badFooter) ∧
    (b.length = s.cfg.P + 3 → b[0]? = some s.cfg.header → b[s.cfg.P + 2]? = some s.cfg.footer →
      b[s.cfg.P + 1]? ≠ some (checksum ((b.drop 1).take s.cfg.P)) → r = .err .checksumMismatch) ∧
    (b.length = s.cfg.P + 3 → b[0]? = some s.cfg.header → b[s.cfg.P + 2]? = some s.cfg.footer →
      b[s.cfg.P + 1]? = some (checksum ((b.drop 1).take s.cfg.P)) → r = .ok ((b.drop 1).take s.cfg.P))

/-- 42_decode.md R105: DECODE is UNPACK of the payload of a validated frame, and the same error otherwise; nothing else
changes. -/
def Obligations.DecodeIsUnpackAfterDecodeFrame : Prop :=
  ∀ (s : State) (b : List Byte), s.cfg.wf = true →
    ∃ r : FrameResult (List FieldValue), exec (.decode b) s = .next { s with ret := .payloadResult r } ∧
      (∀ p, decodeFrame s.cfg b = .ok p → r = .ok (unpack s.cfg p)) ∧
      (∀ e, decodeFrame s.cfg b = .err e → r = .err e)

/-- Arguments that no caller can present (41_encode.md section 1, N27) are refused by name: the model's choice
(log 13). -/
def Obligations.IllTypedArgumentsAreRefused : Prop :=
  (∀ (s : State) (x : List FieldValue), s.cfg.wf = true → s.cfg.schema.admits x = false →
    exec (.pack x) s = .refused .illTypedPayload ∧ exec (.encode x) s = .refused .illTypedPayload) ∧
  (∀ (s : State) (p : List Byte), s.cfg.wf = true → p.length ≠ s.cfg.P →
    exec (.unpack p) s = .refused .wrongPayloadLength) ∧
  (∀ (s : State) (p : List Byte), p.length ≠ s.cfg.P →
    exec (.encodeFrame p) s = .refused .wrongPayloadLength) ∧
  (∀ (s : State) (x : List FieldValue) (p b : List Byte), s.cfg.wf = false →
    exec (.pack x) s = .refused .illFormedConfig ∧ exec (.unpack p) s = .refused .illFormedConfig ∧
    exec (.encode x) s = .refused .illFormedConfig ∧ exec (.decode b) s = .refused .illFormedConfig)

/-- 42_decode.md R109: `decode(encode(v)) == Ok(v)`, and at the byte level `decode_frame(encode_frame(p)) = Ok(p)`,
through the operations. -/
def Obligations.DecodeOfEncodeIsThePayload : Prop :=
  (∀ (s : State) (x : List FieldValue), s.cfg.wf = true → s.cfg.schema.admits x = true →
    ∃ f : List Byte, exec (.encode x) s = .next { s with ret := .bytes f } ∧
      exec (.decode f) s = .next { s with ret := .payloadResult (.ok x) }) ∧
  (∀ (s : State) (p : List Byte), p.length = s.cfg.P →
    ∃ f : List Byte, exec (.encodeFrame p) s = .next { s with ret := .bytes f } ∧
      exec (.decodeFrame f) s = .next { s with ret := .frameResult (.ok p) })

/-- 42_decode.md R110: altering one payload byte or the checksum byte of a valid frame (a flipped bit is one case) is
always a ChecksumMismatch. -/
def Obligations.OneAlteredPayloadByteIsAChecksumMismatch : Prop :=
  ∀ (c : Config) (f p : List Byte) (k : Nat) (v : Byte), decodeFrame c f = .ok p →
    1 ≤ k → k ≤ c.P + 1 → f[k]? ≠ some v → decodeFrame c (f.set k v) = .err .checksumMismatch

/-- 42_decode.md R111: altering the header or the footer of a valid frame; both altered is a BadHeader. -/
def Obligations.AlteredHeaderOrFooterIsReported : Prop :=
  ∀ (c : Config) (f p : List Byte), decodeFrame c f = .ok p →
    (∀ v : Byte, v ≠ c.header → decodeFrame c (f.set 0 v) = .err .badHeader) ∧
    (∀ v : Byte, v ≠ c.footer → decodeFrame c (f.set (c.P + 2) v) = .err .badFooter) ∧
    (∀ v w : Byte, v ≠ c.header → w ≠ c.footer →
      decodeFrame c ((f.set 0 v).set (c.P + 2) w) = .err .badHeader)

/-- 42_decode.md R112: truncating or padding a valid frame by any number of bytes other than zero. -/
def Obligations.TruncatedOrPaddedFrameIsALengthMismatch : Prop :=
  ∀ (c : Config) (f p : List Byte), decodeFrame c f = .ok p →
    (∀ n, n < f.length → decodeFrame c (f.take n) = .err .lengthMismatch) ∧
    (∀ t : List Byte, 1 ≤ t.length →
      decodeFrame c (f ++ t) = .err .lengthMismatch ∧ decodeFrame c (t ++ f) = .err .lengthMismatch)

/-- 70_reset_and_hazards.md section 3 (R156) and 40_checksum.md section 2 (R81): the frame of an instance validates at
an instance that differs in the byte order only, with the same checksum; a mismatch is not detectable. -/
def Obligations.ByteOrderMismatchIsNotDetected : Prop :=
  ∀ (c : Config) (o : ByteOrder) (x : List FieldValue), c.wf = true → c.schema.admits x = true →
    checksum (pack { c with byteOrder := o } x) = checksum (pack c x) ∧
    decodeFrame { c with byteOrder := o } (encodePayload c x) = .ok (pack c x)

/-- 10_state.md section 1 (R13) and 20_memory.md section 4 (R47): a function-level call, or reading a datum, changes no
register, and doing it again gives the same value. That a datum read goes to `ret` alone is the model's choice
(logs 4 and 9). -/
def Obligations.CallsAndDataTouchNoRegister : Prop :=
  ∀ (i : Instr) (s t : State), i.level ≠ .port → exec i s = .next t →
    t = { s with ret := t.ret } ∧ exec i t = .next t

/-! ## The TX unit -/

/-- 41_encode.md R91: when the step is selected; payload byte `k` of the buffer is bits `[8k+7 : 8k]` of the port, for
every `k < P`; nothing is stored beyond; nothing is emitted at this edge; every other register is unchanged. -/
def Obligations.TxAcceptCapturesThePayload : Prop :=
  (∀ (c : Config) (p : PortIn), p.rst = false → p.txReqValid = true →
    decode c .txSelect (txWord c.P .tIdle p) = .ok (.txAccept (p.txReqPayload % 256 ^ c.P) p.txOutReady)) ∧
  (∀ (s : State) (payload : Nat) (r : Bool), s.txPhase = .tIdle →
    (txOutputs s).valid = false ∧
    ∃ m : Memory,
      exec (.txAccept payload r) s = .next { s with txBuf := m, txSum := 0, txIdx := 0, txPhase := .tHdr } ∧
      (∀ k, k < s.cfg.P → m.lookup k = some (BitVec.ofNat 8 (payload >>> (8 * k)))) ∧
      (∀ k, s.cfg.P ≤ k → m.lookup k = none))

/-- 41_encode.md R92, R94, R95: when the header, checksum and footer steps are selected, what they transfer and what
they change; `tx_buf` and every register not named is unchanged. -/
def Obligations.TxFramingStepsTransferTheirBytes : Prop :=
  (∀ (c : Config) (p : PortIn), p.rst = false → p.txOutReady = true →
    decode c .txSelect (txWord c.P .tHdr p) = .ok (.txHdr p.txReqValid) ∧
    decode c .txSelect (txWord c.P .tChk p) = .ok (.txChk p.txReqValid) ∧
    decode c .txSelect (txWord c.P .tFtr p) = .ok (.txFtr p.txReqValid)) ∧
  (∀ (s : State) (v : Bool), s.txPhase = .tHdr →
    txOutputs s = { reqReady := false, valid := true, first := true, last := false, data := s.cfg.header } ∧
    (1 ≤ s.cfg.P → exec (.txHdr v) s = .next { s with txPhase := .tPay }) ∧
    (s.cfg.P = 0 → exec (.txHdr v) s = .next { s with txPhase := .tChk })) ∧
  (∀ (s : State) (v : Bool), s.txPhase = .tChk →
    txOutputs s =
      { reqReady := false, valid := true, first := false, last := false, data := BitVec.ofNat 8 s.txSum } ∧
    exec (.txChk v) s = .next { s with txPhase := .tFtr }) ∧
  (∀ (s : State) (v : Bool), s.txPhase = .tFtr →
    txOutputs s = { reqReady := false, valid := true, first := false, last := true, data := s.cfg.footer } ∧
    exec (.txFtr v) s = .next { s with txPhase := .tIdle, txSum := 0 })

/-- 41_encode.md R93: when the step is selected; the byte transferred is `tx_buf[tx_idx]`, it is added modulo
`2^ACC_W`, and the last payload byte leads to the checksum; every register not named is unchanged. -/
def Obligations.TxPayTransfersAndAddsOneByte : Prop :=
  (∀ (c : Config) (p : PortIn), p.rst = false → p.txOutReady = true →
    decode c .txSelect (txWord c.P .tPay p) = .ok (.txPay p.txReqValid)) ∧
  (∀ (s : State) (v : Bool), s.txPhase = .tPay →
    txOutputs s =
      { reqReady := false, valid := true, first := false, last := false, data := s.txBuf.read .tx s.txIdx } ∧
    (s.txIdx + 1 = s.cfg.P → exec (.txPay v) s = .next
      { s with
        txSum := (s.txSum + (s.txBuf.read .tx s.txIdx).toNat) % 2 ^ s.cfg.accW, txIdx := 0, txPhase := .tChk }) ∧
    (s.txIdx + 1 ≠ s.cfg.P → exec (.txPay v) s = .next
      { s with
        txSum := (s.txSum + (s.txBuf.read .tx s.txIdx).toNat) % 2 ^ s.cfg.accW, txIdx := s.txIdx + 1 }))

/-- 41_encode.md section 2 (R96) and 42_decode.md section 3 (R116): in a state that selects a hold, no register
changes. -/
def Obligations.HoldsChangeNoRegister : Prop :=
  (∀ (s : State) (phase : TxPhase) (v r : Bool), s.txPhase = phase → (phase = .tIdle → v = false) →
    (phase ≠ .tIdle → r = false) → exec (.txHold phase v r) s = .next s) ∧
  (∀ (s : State) (resValid v l r : Bool), s.rxResValid = resValid → (resValid = false → v = false) →
    (resValid = true → r = false) → exec (.rxHold resValid v l r) s = .next s)

/-- A port-level step asked of a unit in a state that does not select it faults; the model's choice (log 8). No edge
asks for one (EveryEdgeAfterResetCompletes). -/
def Obligations.UnselectedPortStepsFault : Prop :=
  (∀ (s : State) (payload : Nat) (r : Bool), s.txPhase ≠ .tIdle →
    exec (.txAccept payload r) s = .fault .notSelected) ∧
  (∀ (s : State) (v : Bool), s.txPhase ≠ .tHdr → exec (.txHdr v) s = .fault .notSelected) ∧
  (∀ (s : State) (v : Bool), s.txPhase ≠ .tPay → exec (.txPay v) s = .fault .notSelected) ∧
  (∀ (s : State) (v : Bool), s.txPhase ≠ .tChk → exec (.txChk v) s = .fault .notSelected) ∧
  (∀ (s : State) (v : Bool), s.txPhase ≠ .tFtr → exec (.txFtr v) s = .fault .notSelected) ∧
  (∀ (s : State) (phase : TxPhase) (v r : Bool),
    s.txPhase ≠ phase ∨ (phase = .tIdle ∧ v = true) ∨ (phase ≠ .tIdle ∧ r = true) →
    exec (.txHold phase v r) s = .fault .notSelected) ∧
  (∀ (s : State) (d : Byte) (r : Bool), s.rxResValid = true →
    exec (.rxBeat d r) s = .fault .notSelected ∧ exec (.rxLast d r) s = .fault .notSelected) ∧
  (∀ (s : State) (v l : Bool), s.rxResValid = false → exec (.rxTake v l) s = .fault .notSelected) ∧
  (∀ (s : State) (resValid v l r : Bool),
    s.rxResValid ≠ resValid ∨ (resValid = false ∧ v = true) ∨ (resValid = true ∧ r = true) →
    exec (.rxHold resValid v l r) s = .fault .notSelected)

/-- 10_state.md R31, R32: the output equations. -/
def Obligations.OutputsAreFunctionsOfTheRegisters : Prop :=
  (∀ s : State,
    ((txOutputs s).reqReady = true ↔ s.txPhase = .tIdle) ∧ ((txOutputs s).valid = true ↔ s.txPhase ≠ .tIdle) ∧
    ((txOutputs s).first = true ↔ s.txPhase = .tHdr) ∧ ((txOutputs s).last = true ↔ s.txPhase = .tFtr) ∧
    (s.txPhase = .tHdr → (txOutputs s).data = s.cfg.header) ∧
    (s.txPhase = .tPay → (txOutputs s).data = s.txBuf.read .tx s.txIdx) ∧
    (s.txPhase = .tChk → (txOutputs s).data = BitVec.ofNat 8 s.txSum) ∧
    (s.txPhase = .tFtr → (txOutputs s).data = s.cfg.footer) ∧
    (s.txPhase = .tIdle → (txOutputs s).data = 0x00)) ∧
  (∀ s : State,
    ((rxOutputs s).inReady = true ↔ s.rxResValid = false) ∧ (rxOutputs s).resValid = s.rxResValid ∧
    (rxOutputs s).resCode = s.rxResCode ∧
    (s.rxResValid = true → s.rxResCode = .ok → (rxOutputs s).resPayload < 256 ^ s.cfg.P ∧
      ∀ k, k < s.cfg.P → BitVec.ofNat 8 ((rxOutputs s).resPayload >>> (8 * k)) = s.rxBuf.read .rx k) ∧
    (¬ (s.rxResValid = true ∧ s.rxResCode = .ok) → (rxOutputs s).resPayload = 0))

/-- 41_encode.md section 2 (R96), 70_reset_and_hazards.md section 3 (R157): the unit never withdraws or changes an
offered byte before it is transferred. -/
def Obligations.OfferedByteIsKeptUntilTransferred : Prop :=
  ∀ (s : State) (p : PortIn) (rest : List Event), s.cfg.wf = true → s.resetSeen = true →
    s.script = .edge p :: rest → p.rst = false → (txOutputs s).valid = true → p.txOutReady = false →
    ∃ t, step s = .next t ∧ SameTx s t ∧ txOutputs t = txOutputs s

/-- 41_encode.md section 3 (R97): the phase graph. Apart from RESET there is no other edge, and `T_PAY` is left only
after the payload byte at `P - 1`. -/
def Obligations.PhaseGraphHasNoOtherEdge : Prop :=
  ∀ s t : State, step s = .next t →
    ((nextEvent s).isReset = true ∧ t.txPhase = .tIdle) ∨
    ((nextEvent s).isReset = false ∧
      (t.txPhase = s.txPhase ∨
       (s.txPhase = .tIdle ∧ t.txPhase = .tHdr) ∨
       (s.txPhase = .tHdr ∧ t.txPhase = .tPay ∧ 1 ≤ s.cfg.P) ∨
       (s.txPhase = .tHdr ∧ t.txPhase = .tChk ∧ s.cfg.P = 0) ∨
       (s.txPhase = .tPay ∧ t.txPhase = .tChk ∧ s.txIdx + 1 = s.cfg.P) ∨
       (s.txPhase = .tChk ∧ t.txPhase = .tFtr) ∨
       (s.txPhase = .tFtr ∧ t.txPhase = .tIdle)))

/-- 41_encode.md section 4 (R98): from an idle TX unit, with `rst` kept 0, the beats transferred on `tx_out` are the
beats of the frames of the payloads taken, in order, with `first` and `last` exactly where they belong, up to the
beats transferred so far: what is missing is less than or all of the last frame, and nothing when the unit is idle
again. For every pattern of stalls and gaps, and with calls and data in between. -/
def Obligations.TxUnitComputesEncodeFrame : Prop :=
  ∀ (n : Nat) (s t : State), TxIdle s → runSteps n s = some t → NoReset n s →
    ∃ missing : List Beat,
      along txTransfer n s ++ missing = (along txRequest n s).flatMap (frameBeats s.cfg) ∧
      missing.length ≤ s.cfg.P + 3 ∧ (TxIdle t ↔ missing = [])

/-- 70_reset_and_hazards.md section 4 (R163): if the transport is ready, a frame in flight is complete within `P + 3`
edges. -/
def Obligations.FrameCompletesWhileTheTransportIsReady : Prop :=
  ∀ (s : State) (ins : List PortIn) (rest : List Event), Inv s → s.cfg.wf = true → s.resetSeen = true →
    s.script = ins.map .edge ++ rest → ins.length = s.cfg.P + 3 →
    (∀ p ∈ ins, p.rst = false ∧ p.txOutReady = true) →
    ∃ k t, k ≤ s.cfg.P + 3 ∧ runSteps k s = some t ∧ TxIdle t

/-! ## The RX unit -/

/-- 42_decode.md R113: when the step is selected; the accepted byte is placed by its offset and counted, saturating
at `P + 3`; every register not named is unchanged, and so is every byte of the buffer but the one placed. -/
def Obligations.RxBeatPlacesAndCountsTheByte : Prop :=
  (∀ (c : Config) (p : PortIn), p.rst = false → p.rxInValid = true → p.rxInLast = false →
    decode c .rxSelect (rxWord false p) = .ok (.rxBeat p.rxInData p.rxResReady)) ∧
  (∀ (s : State) (d : Byte) (r : Bool), s.rxResValid = false →
    ∃ m : Memory,
      exec (.rxBeat d r) s = .next
        { s with
          rxCnt := min (s.rxCnt + 1) (s.cfg.P + 3)
          rxHdrOk := if s.rxCnt = 0 then decide (d = s.cfg.header) else s.rxHdrOk
          rxSum :=
            if 1 ≤ s.rxCnt ∧ s.rxCnt ≤ s.cfg.P then (s.rxSum + d.toNat) % 2 ^ s.cfg.accW else s.rxSum
          rxChk := if s.rxCnt = s.cfg.P + 1 then d else s.rxChk
          rxBuf := m } ∧
      ∀ k, m.lookup k =
        if 1 ≤ s.rxCnt ∧ s.rxCnt ≤ s.cfg.P ∧ k = s.rxCnt - 1 then some d else s.rxBuf.lookup k)

/-- 42_decode.md R114: when the step is selected; the byte is placed, the result is decided from the registers before
the edge in the source's order, and it is delivered; every register not named is unchanged, and so is every byte of
the buffer but the one placed. -/
def Obligations.RxLastDecidesAndDeliversTheResult : Prop :=
  (∀ (c : Config) (p : PortIn), p.rst = false → p.rxInValid = true → p.rxInLast = true →
    decode c .rxSelect (rxWord false p) = .ok (.rxLast p.rxInData p.rxResReady)) ∧
  (∀ (s : State) (d : Byte) (r : Bool), s.rxResValid = false →
    ∃ (m : Memory) (code : ResultCode),
      exec (.rxLast d r) s = .next
        { s with
          rxResValid := true
          rxResCode := code
          rxCnt := 0
          rxSum := 0
          rxHdrOk := false
          rxChk := if s.rxCnt = s.cfg.P + 1 then d else s.rxChk
          rxBuf := m } ∧
      (∀ k, m.lookup k =
        if 1 ≤ s.rxCnt ∧ s.rxCnt ≤ s.cfg.P ∧ k = s.rxCnt - 1 then some d else s.rxBuf.lookup k) ∧
      (s.rxCnt ≠ s.cfg.P + 2 → code = .lengthMismatch) ∧
      (s.rxCnt = s.cfg.P + 2 → s.rxHdrOk = false → code = .badHeader) ∧
      (s.rxCnt = s.cfg.P + 2 → s.rxHdrOk = true → d ≠ s.cfg.footer → code = .badFooter) ∧
      (s.rxCnt = s.cfg.P + 2 → s.rxHdrOk = true → d = s.cfg.footer → BitVec.ofNat 8 s.rxSum ≠ s.rxChk →
        code = .checksumMismatch) ∧
      (s.rxCnt = s.cfg.P + 2 → s.rxHdrOk = true → d = s.cfg.footer → BitVec.ofNat 8 s.rxSum = s.rxChk →
        code = .ok))

/-- 42_decode.md R115: when the step is selected; taking a result, an error or a success, clears the two result flags
and nothing else; from the next cycle the validator takes bytes again and shows no payload. -/
def Obligations.RxTakeClearsTheResult : Prop :=
  (∀ (c : Config) (p : PortIn), p.rst = false → p.rxResReady = true →
    decode c .rxSelect (rxWord true p) = .ok (.rxTake p.rxInValid p.rxInLast)) ∧
  (∀ (s : State) (v l : Bool), s.rxResValid = true →
    ∃ t, exec (.rxTake v l) s = .next t ∧ t = { s with rxResValid := false, rxResCode := .ok } ∧
      rxOutputs t = { inReady := true, resValid := false, resCode := .ok, resPayload := 0 })

/-- 42_decode.md section 3 (R116) and 60_exceptions.md section 5 (R143): while a result is pending and not taken, no
byte is accepted and the result stays on the ports, unchanged. -/
def Obligations.PendingResultIsHeldAndBlocksTheInput : Prop :=
  ∀ (s : State) (p : PortIn) (rest : List Event), s.cfg.wf = true → s.resetSeen = true →
    s.script = .edge p :: rest → p.rst = false → s.rxResValid = true → p.rxResReady = false →
    rxAccept s = [] ∧ ∃ t, step s = .next t ∧ SameRx s t ∧ rxOutputs t = rxOutputs s

/-- 42_decode.md section 3 (R117): at offset `P + 2` and beyond a byte that is not the last is accepted and stored
nowhere, and the buffer then ends in a LengthMismatch, however many bytes follow. -/
def Obligations.OverlongBufferIsDiscardedAndReported : Prop :=
  ∀ (s : State) (ds : List Byte) (d : Byte) (rest : List Event), s.cfg.wf = true → s.resetSeen = true →
    s.rxResValid = false → s.cfg.P + 2 ≤ s.rxCnt → s.rxCnt ≤ s.cfg.P + 3 → ds ≠ [] →
    s.script =
      (ds.map fun x => Event.edge { PortIn.quiet with rxInValid := true, rxInData := x }) ++
        .edge { PortIn.quiet with rxInValid := true, rxInData := d, rxInLast := true } :: rest →
    ∃ t, runSteps (ds.length + 1) s = some t ∧ t.rxBuf = s.rxBuf ∧ t.rxChk = s.rxChk ∧
      t.rxResValid = true ∧ t.rxResCode = .lengthMismatch ∧ (rxOutputs t).resPayload = 0

/-- 42_decode.md section 5 (R119): from an idle RX unit, with `rst` kept 0, once exactly the bytes of one buffer of at
least one byte have been accepted and no result taken, the result ports show `decode_frame` of the buffer. For every
pattern of gaps, and with calls and data in between. -/
def Obligations.RxUnitComputesDecodeFrame : Prop :=
  ∀ (n : Nat) (s t : State) (b : List Byte), Inv s → RxIdle s → runSteps n s = some t → NoReset n s → b ≠ [] →
    along rxAccept n s = bufferBeats b → along rxTaken n s = [] →
    (rxOutputs t).resValid = true ∧ ((rxOutputs t).resCode, (rxOutputs t).resPayload) = resultOf s.cfg b

/-- 20_memory.md section 6 (R50(d)) and 60_exceptions.md section 4 (R141): the results taken are `decode_frame` of the
complete buffers, one each and in order; at most the last of them is still pending, and it is then on the ports. -/
def Obligations.ResultsFollowTheBuffersInOrder : Prop :=
  ∀ (n : Nat) (s t : State), Inv s → RxIdle s → runSteps n s = some t → NoReset n s →
    (buffersAfter [] (along rxAccept n s)).map (resultOf s.cfg) =
      along rxTaken n s ++
        if t.rxResValid then [((rxOutputs t).resCode, (rxOutputs t).resPayload)] else []

/-! ## The whole machine -/

/-- The state after reset meets the invariants of 10_state.md section 7 (R38), for every legal instance. -/
def Obligations.ResetStateMeetsTheInvariants : Prop := ∀ c : Config, Inv (State.resetOf c)

/-- 10_state.md section 7 (R38): every step from a state that meets I1 to I13 gives a state that meets them, whatever
the environment does. I12 and I13 are stated of the buffer's contents (log 21). -/
def Obligations.EveryStepKeepsTheInvariants : Prop :=
  ∀ s t : State, Inv s → step s = .next t → Inv t

/-- 20_memory.md section 6 (R51): neither unit's next registers depend on the other's registers or inputs. -/
def Obligations.UnitsAreIndependent : Prop :=
  ∀ (s s' t t' : State) (p p' : PortIn) (rest rest' : List Event),
    s.script = .edge p :: rest → s'.script = .edge p' :: rest' → p.rst = p'.rst →
    step s = .next t → step s' = .next t' →
    (SameTx s s' → p.txReqValid = p'.txReqValid → p.txReqPayload = p'.txReqPayload →
      p.txOutReady = p'.txOutReady → SameTx t t' ∧ txOutputs t = txOutputs t') ∧
    (SameRx s s' → p.rxInValid = p'.rxInValid → p.rxInData = p'.rxInData → p.rxInLast = p'.rxInLast →
      p.rxResReady = p'.rxResReady → SameRx t t' ∧ rxOutputs t = rxOutputs t')

/-- 20_memory.md section 6 (R51): "A model may step the two units in either order". -/
def Obligations.UnitStepsCommute : Prop :=
  ∀ (s : State) (i j : Instr), i.format = some .txSelect → j.format = some .rxSelect →
    andThen (exec i s) (exec j) = andThen (exec j s) (exec i)

/-- 10_state.md section 7 (R39): two idle states that differ only in the buffers and in `rx_chk` are equivalent: under
the same environment they show the same outputs for ever. -/
def Obligations.IdleStatesAreEquivalent : Prop :=
  ∀ (n : Nat) (s s' : State), Inv s → Inv s' → TxIdle s → RxIdle s → TxIdle s' → RxIdle s' →
    s.cfg = s'.cfg → s.script = s'.script → s.resetSeen = s'.resetSeen →
    along outputsSeen n s = along outputsSeen n s'

/-- 42_decode.md section 2 (R109) at the ports, with the loop-back wiring of 30_encoding.md section 3 (R63): from an
idle instance a payload taken at one edge is on the result port, as a success, after `P + 3` more. -/
def Obligations.LoopBackDeliversThePayload : Prop :=
  ∀ (s : State) (payload : Nat), Inv s → s.cfg.wf = true → s.resetSeen = true → TxIdle s → RxIdle s →
    payload < 256 ^ s.cfg.P →
    ∃ t u, loopEdge true payload false s = .next t ∧ loopIdle (s.cfg.P + 3) t = some u ∧ TxIdle u ∧
      rxOutputs u = { inReady := false, resValid := true, resCode := .ok, resPayload := payload }

/-- 70_reset_and_hazards.md section 4 (R163): "from every reachable state some input sequence leads back to idle
without RESET". -/
def Obligations.EveryStateCanReturnToIdleWithoutReset : Prop :=
  ∀ s : State, Inv s → s.cfg.wf = true → s.resetSeen = true →
    ∃ (ins : List PortIn) (t : State), (∀ p ∈ ins, p.rst = false) ∧
      runSteps ins.length { s with script := ins.map .edge } = some t ∧ TxIdle t ∧ RxIdle t

/-! ## The data formats -/

/-- 30_encoding.md sections 1 and 2 (R57, R59): reading a frame gives its parts at their offsets and whether the
checksum byte is the payload's; a FRAME of a payload of another length, which is no frame of this instance (R58), is
refused as wrongPayloadLength. That reading gives these parts and changes nothing else is the model's choice (logs 9
and 14), and so is that the FRAME_Pn rows are read in every instance, whatever its `P` and its constants (log 14), and
that a FRAME of another length is refused (log 13). -/
def Obligations.FrameRowsGiveTheirParts : Prop :=
  (∀ (s : State) (p : List Byte) (k : Byte), p.length = s.cfg.P →
    exec (.frame p k) s = .next
      { s with ret := .frame ⟨s.cfg.header, p, k, s.cfg.footer, decide (k = checksum p)⟩ }) ∧
  (∀ (s : State) (p : List Byte) (k : Byte), p.length ≠ s.cfg.P →
    exec (.frame p k) s = .refused .wrongPayloadLength) ∧
  (∀ (s : State) (k : Byte), exec (.frameP0 k) s = .next
    { s with ret := .frame ⟨0xAA, [], k, 0x55, decide (k = 0x00)⟩ }) ∧
  (∀ (s : State) (a0 a1 k : Byte), exec (.frameP2 (a0 ++ a1) k) s = .next
    { s with ret := .frame ⟨0xAA, [a0, a1], k, 0x55, decide (k = checksum [a0, a1])⟩ }) ∧
  (∀ (s : State) (p : BitVec 96) (k : Byte), ∃ q : List Byte, q.length = 12 ∧
    (∀ m, m < 12 → q[m]? = some (p.extractLsb' (8 * (11 - m)) 8)) ∧
    exec (.frameP12 p k) s = .next { s with ret := .frame ⟨0xAA, q, k, 0x55, decide (k = checksum q)⟩ }) ∧
  (∀ (s : State) (p : BitVec 128) (k : Byte), ∃ q : List Byte, q.length = 16 ∧
    (∀ m, m < 16 → q[m]? = some (p.extractLsb' (8 * (15 - m)) 8)) ∧
    exec (.frameP16 p k) s = .next { s with ret := .frame ⟨0xAA, q, k, 0x55, decide (k = checksum q)⟩ })

/-- 30_encoding.md section 2 (R61): reading the four bytes of a field gives the pattern whose slices they are, in the
order of the row; a byte array is itself, and an empty one is refused (R60). That reading changes nothing else is the
model's choice (log 9), and so is that every row is read in every instance, whatever its byte order and schema (log
9), and the name of the refusal (log 13). -/
def Obligations.FieldRowsGiveTheirPattern : Prop :=
  (∀ (s : State) (b0 b1 b2 b3 : Byte), ∃ v : Word32,
    v.extractLsb' 0 8 = b0 ∧ v.extractLsb' 8 8 = b1 ∧ v.extractLsb' 16 8 = b2 ∧ v.extractLsb' 24 8 = b3 ∧
    exec (.fieldI32Little b0 b1 b2 b3) s = .next { s with ret := .field (.i32 v) } ∧
    exec (.fieldF32Little b0 b1 b2 b3) s = .next { s with ret := .field (.f32 v) }) ∧
  (∀ (s : State) (b0 b1 b2 b3 : Byte), ∃ v : Word32,
    v.extractLsb' 24 8 = b0 ∧ v.extractLsb' 16 8 = b1 ∧ v.extractLsb' 8 8 = b2 ∧ v.extractLsb' 0 8 = b3 ∧
    exec (.fieldI32Big b0 b1 b2 b3) s = .next { s with ret := .field (.i32 v) } ∧
    exec (.fieldF32Big b0 b1 b2 b3) s = .next { s with ret := .field (.f32 v) }) ∧
  (∀ (s : State) (a : List Byte), 1 ≤ a.length →
    exec (.fieldBytesN a) s = .next { s with ret := .field (.bytes a) }) ∧
  (∀ s : State, exec (.fieldBytesN []) s = .refused .zeroWidthField)

/-- 30_encoding.md section 3 (R63, R65, R66): reading a beat, a result code or a phase number gives what it encodes.
That reading changes nothing else is the model's choice (log 9). -/
def Obligations.BeatCodeAndPhaseRowsGiveTheirMeaning : Prop :=
  ∀ s : State,
    (∀ (first last : Bool) (d : Byte),
      exec (.beatTxOut first last d) s = .next { s with ret := .beatOut first last d }) ∧
    (∀ (last : Bool) (d : Byte), exec (.beatRxIn last d) s = .next { s with ret := .beatIn last d }) ∧
    exec .resOk s = .next { s with ret := .code .ok } ∧
    exec .resLengthMismatch s = .next { s with ret := .code .lengthMismatch } ∧
    exec .resBadHeader s = .next { s with ret := .code .badHeader } ∧
    exec .resBadFooter s = .next { s with ret := .code .badFooter } ∧
    exec .resChecksumMismatch s = .next { s with ret := .code .checksumMismatch } ∧
    exec .phaseTIdle s = .next { s with ret := .phase .tIdle } ∧
    exec .phaseTHdr s = .next { s with ret := .phase .tHdr } ∧
    exec .phaseTPay s = .next { s with ret := .phase .tPay } ∧
    exec .phaseTChk s = .next { s with ret := .phase .tChk } ∧
    exec .phaseTFtr s = .next { s with ret := .phase .tFtr }

/-- 30_encoding.md R70: result codes and phases 5, 6, 7 are never produced by any rule and are given no meaning:
reading one is refused by name. That they are refused, in this form, is the model's choice (log 18). -/
def Obligations.ReservedCodesAndPhasesAreRefused : Prop :=
  ∀ s : State,
    exec .resReserved5 s = .refused .reservedResultCode ∧ exec .resReserved6 s = .refused .reservedResultCode ∧
    exec .resReserved7 s = .refused .reservedResultCode ∧ exec .phaseReserved5 s = .refused .reservedPhase ∧
    exec .phaseReserved6 s = .refused .reservedPhase ∧ exec .phaseReserved7 s = .refused .reservedPhase
end

