-- ==== Sys2Proof/Laws/State.lean ====
section
/-! SUPPORT. Laws/State.lean: one lemma per field per named update of the state, true by rfl. -/

namespace Sys2Proof.Machine

/-! ### RESET (70_reset_and_hazards.md R151) -/

@[simp] theorem resetRegisters_cfg (s : State) : (resetRegisters s).cfg = s.cfg := rfl
@[simp] theorem resetRegisters_txPhase (s : State) : (resetRegisters s).txPhase = .tIdle := rfl
@[simp] theorem resetRegisters_txIdx (s : State) : (resetRegisters s).txIdx = 0 := rfl
@[simp] theorem resetRegisters_txSum (s : State) : (resetRegisters s).txSum = 0 := rfl
@[simp] theorem resetRegisters_txBuf (s : State) : (resetRegisters s).txBuf = s.txBuf := rfl
@[simp] theorem resetRegisters_rxCnt (s : State) : (resetRegisters s).rxCnt = 0 := rfl
@[simp] theorem resetRegisters_rxSum (s : State) : (resetRegisters s).rxSum = 0 := rfl
@[simp] theorem resetRegisters_rxHdrOk (s : State) : (resetRegisters s).rxHdrOk = false := rfl
@[simp] theorem resetRegisters_rxChk (s : State) : (resetRegisters s).rxChk = 0x00 := rfl
@[simp] theorem resetRegisters_rxBuf (s : State) : (resetRegisters s).rxBuf = s.rxBuf := rfl
@[simp] theorem resetRegisters_rxResValid (s : State) : (resetRegisters s).rxResValid = false := rfl
@[simp] theorem resetRegisters_rxResCode (s : State) : (resetRegisters s).rxResCode = .ok := rfl
@[simp] theorem resetRegisters_resetSeen (s : State) : (resetRegisters s).resetSeen = true := rfl
@[simp] theorem resetRegisters_script (s : State) : (resetRegisters s).script = s.script := rfl
@[simp] theorem resetRegisters_ret (s : State) : (resetRegisters s).ret = s.ret := rfl

/-! ### delivering a result (60_exceptions.md R140) -/

@[simp] theorem deliverResult_cfg (k : ResultCode) (s : State) : (deliverResult k s).cfg = s.cfg := rfl
@[simp] theorem deliverResult_txPhase (k : ResultCode) (s : State) : (deliverResult k s).txPhase = s.txPhase := rfl
@[simp] theorem deliverResult_txIdx (k : ResultCode) (s : State) : (deliverResult k s).txIdx = s.txIdx := rfl
@[simp] theorem deliverResult_txSum (k : ResultCode) (s : State) : (deliverResult k s).txSum = s.txSum := rfl
@[simp] theorem deliverResult_txBuf (k : ResultCode) (s : State) : (deliverResult k s).txBuf = s.txBuf := rfl
@[simp] theorem deliverResult_rxCnt (k : ResultCode) (s : State) : (deliverResult k s).rxCnt = 0 := rfl
@[simp] theorem deliverResult_rxSum (k : ResultCode) (s : State) : (deliverResult k s).rxSum = 0 := rfl
@[simp] theorem deliverResult_rxHdrOk (k : ResultCode) (s : State) : (deliverResult k s).rxHdrOk = false := rfl
@[simp] theorem deliverResult_rxChk (k : ResultCode) (s : State) : (deliverResult k s).rxChk = s.rxChk := rfl
@[simp] theorem deliverResult_rxBuf (k : ResultCode) (s : State) : (deliverResult k s).rxBuf = s.rxBuf := rfl
@[simp] theorem deliverResult_rxResValid (k : ResultCode) (s : State) : (deliverResult k s).rxResValid = true := rfl
@[simp] theorem deliverResult_rxResCode (k : ResultCode) (s : State) : (deliverResult k s).rxResCode = k := rfl
@[simp] theorem deliverResult_resetSeen (k : ResultCode) (s : State) : (deliverResult k s).resetSeen = s.resetSeen := rfl
@[simp] theorem deliverResult_script (k : ResultCode) (s : State) : (deliverResult k s).script = s.script := rfl
@[simp] theorem deliverResult_ret (k : ResultCode) (s : State) : (deliverResult k s).ret = s.ret := rfl

/-! ### taking a result (42_decode.md R115) -/

@[simp] theorem takeResult_cfg (s : State) : (takeResult s).cfg = s.cfg := rfl
@[simp] theorem takeResult_txPhase (s : State) : (takeResult s).txPhase = s.txPhase := rfl
@[simp] theorem takeResult_txIdx (s : State) : (takeResult s).txIdx = s.txIdx := rfl
@[simp] theorem takeResult_txSum (s : State) : (takeResult s).txSum = s.txSum := rfl
@[simp] theorem takeResult_txBuf (s : State) : (takeResult s).txBuf = s.txBuf := rfl
@[simp] theorem takeResult_rxCnt (s : State) : (takeResult s).rxCnt = s.rxCnt := rfl
@[simp] theorem takeResult_rxSum (s : State) : (takeResult s).rxSum = s.rxSum := rfl
@[simp] theorem takeResult_rxHdrOk (s : State) : (takeResult s).rxHdrOk = s.rxHdrOk := rfl
@[simp] theorem takeResult_rxChk (s : State) : (takeResult s).rxChk = s.rxChk := rfl
@[simp] theorem takeResult_rxBuf (s : State) : (takeResult s).rxBuf = s.rxBuf := rfl
@[simp] theorem takeResult_rxResValid (s : State) : (takeResult s).rxResValid = false := rfl
@[simp] theorem takeResult_rxResCode (s : State) : (takeResult s).rxResCode = .ok := rfl
@[simp] theorem takeResult_resetSeen (s : State) : (takeResult s).resetSeen = s.resetSeen := rfl
@[simp] theorem takeResult_script (s : State) : (takeResult s).script = s.script := rfl
@[simp] theorem takeResult_ret (s : State) : (takeResult s).ret = s.ret := rfl

/-! ### an event put in front of the script -/

@[simp] theorem pushEvent_cfg (e : Event) (s : State) : (pushEvent e s).cfg = s.cfg := rfl
@[simp] theorem pushEvent_txPhase (e : Event) (s : State) : (pushEvent e s).txPhase = s.txPhase := rfl
@[simp] theorem pushEvent_txIdx (e : Event) (s : State) : (pushEvent e s).txIdx = s.txIdx := rfl
@[simp] theorem pushEvent_txSum (e : Event) (s : State) : (pushEvent e s).txSum = s.txSum := rfl
@[simp] theorem pushEvent_txBuf (e : Event) (s : State) : (pushEvent e s).txBuf = s.txBuf := rfl
@[simp] theorem pushEvent_rxCnt (e : Event) (s : State) : (pushEvent e s).rxCnt = s.rxCnt := rfl
@[simp] theorem pushEvent_rxSum (e : Event) (s : State) : (pushEvent e s).rxSum = s.rxSum := rfl
@[simp] theorem pushEvent_rxHdrOk (e : Event) (s : State) : (pushEvent e s).rxHdrOk = s.rxHdrOk := rfl
@[simp] theorem pushEvent_rxChk (e : Event) (s : State) : (pushEvent e s).rxChk = s.rxChk := rfl
@[simp] theorem pushEvent_rxBuf (e : Event) (s : State) : (pushEvent e s).rxBuf = s.rxBuf := rfl
@[simp] theorem pushEvent_rxResValid (e : Event) (s : State) : (pushEvent e s).rxResValid = s.rxResValid := rfl
@[simp] theorem pushEvent_rxResCode (e : Event) (s : State) : (pushEvent e s).rxResCode = s.rxResCode := rfl
@[simp] theorem pushEvent_resetSeen (e : Event) (s : State) : (pushEvent e s).resetSeen = s.resetSeen := rfl
@[simp] theorem pushEvent_script (e : Event) (s : State) : (pushEvent e s).script = e :: s.script := rfl
@[simp] theorem pushEvent_ret (e : Event) (s : State) : (pushEvent e s).ret = s.ret := rfl

/-! ### the next event consumed -/

@[simp] theorem popEvent_cfg (s : State) : (popEvent s).cfg = s.cfg := rfl
@[simp] theorem popEvent_txPhase (s : State) : (popEvent s).txPhase = s.txPhase := rfl
@[simp] theorem popEvent_txIdx (s : State) : (popEvent s).txIdx = s.txIdx := rfl
@[simp] theorem popEvent_txSum (s : State) : (popEvent s).txSum = s.txSum := rfl
@[simp] theorem popEvent_txBuf (s : State) : (popEvent s).txBuf = s.txBuf := rfl
@[simp] theorem popEvent_rxCnt (s : State) : (popEvent s).rxCnt = s.rxCnt := rfl
@[simp] theorem popEvent_rxSum (s : State) : (popEvent s).rxSum = s.rxSum := rfl
@[simp] theorem popEvent_rxHdrOk (s : State) : (popEvent s).rxHdrOk = s.rxHdrOk := rfl
@[simp] theorem popEvent_rxChk (s : State) : (popEvent s).rxChk = s.rxChk := rfl
@[simp] theorem popEvent_rxBuf (s : State) : (popEvent s).rxBuf = s.rxBuf := rfl
@[simp] theorem popEvent_rxResValid (s : State) : (popEvent s).rxResValid = s.rxResValid := rfl
@[simp] theorem popEvent_rxResCode (s : State) : (popEvent s).rxResCode = s.rxResCode := rfl
@[simp] theorem popEvent_resetSeen (s : State) : (popEvent s).resetSeen = s.resetSeen := rfl
@[simp] theorem popEvent_script (s : State) : (popEvent s).script = s.script.tail := rfl
@[simp] theorem popEvent_ret (s : State) : (popEvent s).ret = s.ret := rfl

end Sys2Proof.Machine
end

