-- ==== Sys2Proof/Laws/Memory.lean ====
section
/-! SUPPORT. Laws/Memory.lean: the laws of the two buffers: a read after a write, a write leaves every other offset
alone, and every operation keeps the canonical form. -/

namespace Sys2Proof.Machine

/-! ### Reads after writes -/

@[simp] theorem Memory.lookup_nil (a : Nat) : Memory.lookup [] a = none := rfl

theorem Memory.lookup_write (m : Memory) (a k : Nat) (v : Byte) :
    (m.write a v).lookup k = if k = a then some v else m.lookup k := by
  induction m with
  | nil => simp only [Memory.write, Memory.lookup]; split <;> split <;> first | rfl | omega
  | cons x m ih =>
    obtain ⟨b, w⟩ := x
    unfold Memory.write
    by_cases h1 : a < b
    · rw [if_pos h1]
      by_cases hk : k = a
      · subst hk; simp [Memory.lookup]
      · have : ¬ a = k := fun e => hk e.symm
        simp [Memory.lookup, hk, this]
    · rw [if_neg h1]
      by_cases h2 : a = b
      · subst h2
        by_cases hk : k = a
        · subst hk; simp [Memory.lookup]
        · have : ¬ a = k := fun e => hk e.symm
          simp [Memory.lookup, hk, this]
      · rw [if_neg h2]
        by_cases hk : k = a
        · subst hk
          have hb : ¬ b = k := fun e => h2 e.symm
          simp [Memory.lookup, hb, ih]
        · by_cases hb : b = k
          · simp [Memory.lookup, hb, hk]
          · simp [Memory.lookup, hb, hk, ih]

theorem Memory.read_write (b : Buffer) (m : Memory) (a k : Nat) (v : Byte) :
    (m.write a v).read b k = if k = a then v else m.read b k := by
  simp only [Memory.read, Memory.lookup_write m a k v]; split <;> rfl

/-! ### The canonical form -/

theorem Memory.fst_of_mem_write (m : Memory) (a : Nat) (v : Byte) :
    ∀ x ∈ m.write a v, x.1 = a ∨ x ∈ m := by
  induction m with
  | nil => intro x hx; simp only [Memory.write, List.mem_singleton] at hx; subst hx; exact .inl rfl
  | cons y m ih =>
    obtain ⟨b, w⟩ := y
    intro x hx
    unfold Memory.write at hx
    by_cases h1 : a < b
    · rw [if_pos h1] at hx
      rcases List.mem_cons.mp hx with rfl | hx
      · exact .inl rfl
      · exact .inr hx
    · rw [if_neg h1] at hx
      by_cases h2 : a = b
      · rw [if_pos h2] at hx
        rcases List.mem_cons.mp hx with rfl | hx
        · exact .inl rfl
        · exact .inr (List.mem_cons_of_mem _ hx)
      · rw [if_neg h2] at hx
        rcases List.mem_cons.mp hx with rfl | hx
        · exact .inr List.mem_cons_self
        · exact (ih x hx).imp_right (List.mem_cons_of_mem _)

theorem Memory.write_wf (m : Memory) (a : Nat) (v : Byte) (h : m.wf) : (m.write a v).wf := by
  induction m with
  | nil => exact List.pairwise_singleton _ _
  | cons y m ih =>
    obtain ⟨b, w⟩ := y
    obtain ⟨hb, hm⟩ := List.pairwise_cons.mp h
    unfold Memory.write
    by_cases h1 : a < b
    · rw [if_pos h1]
      refine List.pairwise_cons.mpr ⟨fun x hx => ?_, h⟩
      rcases List.mem_cons.mp hx with rfl | hx
      · exact h1
      · exact Nat.lt_trans h1 (hb x hx)
    · rw [if_neg h1]
      by_cases h2 : a = b
      · rw [if_pos h2]; subst h2; exact List.pairwise_cons.mpr ⟨hb, hm⟩
      · rw [if_neg h2]
        refine List.pairwise_cons.mpr ⟨fun x hx => ?_, ih hm⟩
        rcases Memory.fst_of_mem_write m a v x hx with hx | hx
        · show b < x.1; omega
        · exact hb x hx

theorem Memory.write_within (m : Memory) (a n : Nat) (v : Byte) (ha : a < n) (h : m.within n) :
    (m.write a v).within n := by
  intro x hx
  rcases Memory.fst_of_mem_write m a v x hx with hx | hx
  · omega
  · exact h x hx

theorem Memory.written_write (m : Memory) (a n : Nat) (v : Byte) (h : m.written n) :
    (m.write a v).written n := by
  intro k hk
  rw [Memory.lookup_write m a k v]
  split
  · simp
  · exact h k hk

theorem fillBuffer_wf (b : List Nat) (m : Memory) (h : m.wf) : (fillBuffer b m).wf := by
  induction b generalizing m with
  | nil => exact h
  | cons k b ih =>
    refine ih _ ?_
    split
    · exact h
    · exact Memory.write_wf m k 0 h

theorem reset_buffers_wf : State.reset.txBuf.wf ∧ State.reset.rxBuf.wf := ⟨List.Pairwise.nil, List.Pairwise.nil⟩

/-! ### Sequences of bytes -/

@[simp] theorem Memory.bytes_zero (b : Buffer) (m : Memory) : m.bytes b 0 = [] := rfl


@[simp] theorem Memory.length_bytes (b : Buffer) (m : Memory) (n : Nat) : (m.bytes b n).length = n := by
  simp [Memory.bytes]

theorem Memory.bytes_succ (b : Buffer) (m : Memory) (n : Nat) :
    m.bytes b (n + 1) = m.bytes b n ++ [m.read b n] := by
  simp [Memory.bytes, List.range_succ]

theorem Memory.bytes_congr (b : Buffer) (m m' : Memory) (n : Nat) (h : ∀ k, k < n → m.read b k = m'.read b k) :
    m.bytes b n = m'.bytes b n :=
  List.map_congr_left fun k hk => h k (List.mem_range.mp hk)

theorem Memory.bytes_write_end (b : Buffer) (m : Memory) (n : Nat) (v : Byte) :
    (m.write n v).bytes b (n + 1) = m.bytes b n ++ [v] := by
  rw [Memory.bytes_succ, Memory.read_write b m n n v, if_pos rfl]
  congr 1
  refine Memory.bytes_congr b _ _ n fun k hk => ?_
  rw [Memory.read_write b m n k v, if_neg (by omega)]

/-- The cells of a sequence of bytes laid down from an offset on. -/
theorem Memory.lookup_zipIdx (p : List Byte) (j k : Nat) :
    Memory.lookup ((p.zipIdx j).map (fun x => (x.2, x.1))) k = if j ≤ k then p[k - j]? else none := by
  induction p generalizing j with
  | nil => simp
  | cons d p ih =>
    simp only [List.zipIdx_cons, List.map_cons, Memory.lookup, ih]
    by_cases h : j = k
    · subst h; simp
    · rw [if_neg h]
      by_cases h2 : j ≤ k
      · rw [if_pos h2, if_pos (by omega)]
        obtain ⟨i, hi⟩ : ∃ i, k - j = i + 1 := ⟨k - j - 1, by omega⟩
        rw [hi, show k - (j + 1) = i by omega]; rfl
      · rw [if_neg h2, if_neg (by omega)]

@[simp] theorem Memory.lookup_ofBytes (p : List Byte) (k : Nat) : (Memory.ofBytes p).lookup k = p[k]? := by
  simpa [Memory.ofBytes] using Memory.lookup_zipIdx p 0 k

theorem Memory.mem_ofBytes {p : List Byte} {x : Host.Cell} (h : x ∈ Memory.ofBytes p) : x.1 < p.length := by
  simp only [Memory.ofBytes, List.mem_map] at h
  obtain ⟨y, hy, rfl⟩ := h
  have := List.snd_lt_of_mem_zipIdx hy
  simpa using this

theorem Memory.zipIdx_wf (p : List Byte) (j : Nat) :
    Memory.wf ((p.zipIdx j).map (fun x => (x.2, x.1))) := by
  induction p generalizing j with
  | nil => exact List.Pairwise.nil
  | cons d p ih =>
    refine List.pairwise_cons.mpr ⟨fun x hx => ?_, ih (j + 1)⟩
    obtain ⟨y, hy, rfl⟩ := List.mem_map.mp hx
    have := List.le_snd_of_mem_zipIdx hy
    show j < y.2
    omega

theorem Memory.ofBytes_wf (p : List Byte) : (Memory.ofBytes p).wf := Memory.zipIdx_wf p 0

theorem Memory.ofBytes_within (p : List Byte) : (Memory.ofBytes p).within p.length := fun _ h => Memory.mem_ofBytes h

theorem Memory.ofBytes_written (p : List Byte) : (Memory.ofBytes p).written p.length := by
  intro k hk; simp [hk]

theorem Memory.read_ofBytes (b : Buffer) (p : List Byte) (k : Nat) (h : k < p.length) :
    (Memory.ofBytes p).read b k = p[k] := by
  simp [Memory.read, h]

theorem Memory.bytes_ofBytes (b : Buffer) (p : List Byte) : (Memory.ofBytes p).bytes b p.length = p := by
  refine List.ext_getElem (by simp) fun k h1 h2 => ?_
  simp [Memory.bytes, Memory.read_ofBytes b p k h2]

end Sys2Proof.Machine
end

