-- ==== Sys2Proof/Laws/Bytes.lean ====
section
/-! SUPPORT. Laws/Bytes.lean: the laws of byte sequences as numbers, of the payload ports, of the checksum and its
accumulator, and of field images. -/

namespace Sys2Proof

@[simp] theorem length_leBytes (n v : Nat) : (leBytes n v).length = n := by
  induction n generalizing v with
  | zero => rfl
  | succ n ih => simp [leBytes, ih]

theorem leValue_leBytes (n v : Nat) : leValue (leBytes n v) = v % 256 ^ n := by
  induction n generalizing v with
  | zero => simp [leBytes, leValue, Nat.mod_one]
  | succ n ih =>
    simp only [leBytes, leValue, ih, BitVec.toNat_ofNat]
    rw [show (256 : Nat) ^ (n + 1) = 256 * 256 ^ n by rw [pow_succ, Nat.mul_comm], Nat.mod_mul]

theorem leValue_lt (bs : List Byte) : leValue bs < 256 ^ bs.length := by
  induction bs with
  | nil => simp [leValue]
  | cons b bs ih =>
    have := b.isLt
    simp only [leValue, List.length_cons, pow_succ]
    omega

theorem leBytes_leValue (bs : List Byte) : leBytes bs.length (leValue bs) = bs := by
  induction bs with
  | nil => rfl
  | cons b bs ih =>
    have h := b.isLt
    have h1 : (b.toNat + 256 * leValue bs) / 256 = leValue bs := by omega
    have h2 : BitVec.ofNat 8 (b.toNat + 256 * leValue bs) = b := by
      apply BitVec.eq_of_toNat_eq
      rw [BitVec.toNat_ofNat]
      omega
    simp only [leBytes, leValue, List.length_cons, h1, h2, ih]

@[simp] theorem length_beBytes (n v : Nat) : (beBytes n v).length = n := by simp [beBytes]

theorem beValue_beBytes (n v : Nat) : beValue (beBytes n v) = v % 256 ^ n := by
  simp [beValue, beBytes, leValue_leBytes]

theorem beBytes_beValue (bs : List Byte) : beBytes bs.length (beValue bs) = bs := by
  have := leBytes_leValue bs.reverse
  simp only [List.length_reverse] at this
  simp [beBytes, beValue, this]

theorem beValue_lt (bs : List Byte) : beValue bs < 256 ^ bs.length := by
  simpa [beValue] using leValue_lt bs.reverse

namespace Machine

/-! ### The payload ports -/

@[simp] theorem length_portBytes (n v : Nat) : (portBytes n v).length = n := by simp [portBytes]

theorem portBytes_eq_leBytes (n v : Nat) : portBytes n v = leBytes n v := by
  induction n generalizing v with
  | zero => rfl
  | succ n ih =>
    rw [leBytes, ← ih (v / 256)]
    simp only [portBytes, List.range_succ_eq_map, List.map_cons, List.map_map]
    congr 1
    · simp [portByte]
    · refine List.map_congr_left fun k _ => ?_
      simp [portByte, Nat.div_div_eq_div_mul, pow_succ, Nat.mul_comm]

theorem portBytes_portValue (p : List Byte) : portBytes p.length (portValue p) = p := by
  rw [portBytes_eq_leBytes]; exact leBytes_leValue p

theorem portValue_portBytes (n v : Nat) : portValue (portBytes n v) = v % 256 ^ n := by
  rw [portBytes_eq_leBytes]; exact leValue_leBytes n v

/-! ### The checksum -/

theorem byteSum_append (a b : List Byte) : byteSum (a ++ b) = byteSum a + byteSum b := by
  induction a with
  | nil => simp [byteSum]
  | cons d a ih => simp [byteSum, ih, Nat.add_assoc]

theorem byteSum_snoc (a : List Byte) (d : Byte) : byteSum (a ++ [d]) = byteSum a + d.toNat := by
  simp [byteSum_append, byteSum]

theorem byteSum_eq_sum (b : List Byte) : byteSum b = (b.map BitVec.toNat).sum := by
  induction b with
  | nil => rfl
  | cons d b ih => simp [byteSum, ih]

theorem checksum_toNat (b : List Byte) : (checksum b).toNat = byteSum b % 256 := by
  simp [checksum]

/-- The accumulator after a prefix of the bytes (40_checksum.md R77). -/
theorem accumulate_sum (w n : Nat) (d : Byte) : accumulate w (n % 2 ^ w) d = (n + d.toNat) % 2 ^ w := by
  simp [accumulate, Nat.add_mod]

theorem accumulate_lt (w acc : Nat) (d : Byte) : accumulate w acc d < 2 ^ w := Nat.mod_lt _ (by positivity)

/-- The low byte of an accumulator of at least 8 bits is the checksum (40_checksum.md R78). -/
theorem lowByte_mod (w n : Nat) (h : 8 ≤ w) : lowByte (n % 2 ^ w) = BitVec.ofNat 8 (n % 256) := by
  apply BitVec.eq_of_toNat_eq
  simp only [lowByte, BitVec.toNat_ofNat]
  obtain ⟨k, rfl⟩ := Nat.exists_eq_add_of_le h
  rw [Nat.mod_mod_of_dvd n (Dvd.intro (2 ^ k) (by rw [pow_add]))]
  omega

theorem lowByte_byteSum (w : Nat) (b : List Byte) (h : 8 ≤ w) : lowByte (byteSum b % 2 ^ w) = checksum b :=
  lowByte_mod w (byteSum b) h

/-! ### Field images -/

theorem wordValue_wordImage (o : ByteOrder) (v : Word32) : wordAt o (wordImage o v) = v := by
  cases o <;>
  · apply BitVec.eq_of_getLsbD_eq
    intro i hi
    simp only [wordAt, wordImage, wordValue, List.getD_cons_zero, List.getD_cons_succ, BitVec.getLsbD_append,
      BitVec.getLsbD_extractLsb']
    split <;> rename_i h1
    · simp [h1]
    · split <;> rename_i h2
      · rw [show decide (i - 8 < 8) = true by simpa using h2, Bool.true_and]; congr 1; omega
      · split <;> rename_i h3
        · rw [show decide (i - 8 - 8 < 8) = true by simpa using h3, Bool.true_and]; congr 1; omega
        · rw [show decide (i - 8 - 8 - 8 < 8) = true by simp; omega, Bool.true_and]; congr 1; omega

theorem wordImage_wordValue (o : ByteOrder) (b0 b1 b2 b3 : Byte) :
    wordImage o (wordValue o b0 b1 b2 b3) = [b0, b1, b2, b3] := by
  have e (x y z w : Byte) :
      (x ++ y ++ z ++ w).extractLsb' 0 8 = w ∧ (x ++ y ++ z ++ w).extractLsb' 8 8 = z ∧
      (x ++ y ++ z ++ w).extractLsb' 16 8 = y ∧ (x ++ y ++ z ++ w).extractLsb' 24 8 = x := by
    refine ⟨?_, ?_, ?_, ?_⟩ <;>
    · apply BitVec.eq_of_getLsbD_eq
      intro i hi
      simp only [BitVec.getLsbD_extractLsb', BitVec.getLsbD_append, hi, decide_true, Bool.true_and]
      repeat' (split <;> try omega)
      all_goals first | rfl | (congr 1; omega)
  cases o with
  | little => simp [wordImage, wordValue, e b3 b2 b1 b0]
  | big => simp [wordImage, wordValue, e b0 b1 b2 b3]

theorem length_fieldImage (o : ByteOrder) (x : FieldValue) (t : FieldType) (h : x.conforms t = true) :
    (fieldImage o x).length = t.width := by
  cases x <;> cases t <;> simp_all [FieldValue.conforms, fieldImage, FieldType.width, wordImage] <;> cases o <;> rfl

/-- A field is read from its image, whatever follows it (43_schema.md R125 to R127). -/
theorem fieldRead_fieldImage (o : ByteOrder) (x : FieldValue) (t : FieldType) (rest : List Byte)
    (h : x.conforms t = true) : fieldRead o t (fieldImage o x ++ rest) = x := by
  cases x with
  | i32 v =>
    cases t <;> simp_all [FieldValue.conforms]
    have := wordValue_wordImage o v
    cases o <;> simpa [fieldRead, fieldImage, wordAt, wordImage] using this
  | f32 v =>
    cases t <;> simp_all [FieldValue.conforms]
    have := wordValue_wordImage o v
    cases o <;> simpa [fieldRead, fieldImage, wordAt, wordImage] using this
  | bytes a =>
    cases t <;> simp_all [FieldValue.conforms, fieldRead, fieldImage]

/-- The image of the field read from a sequence of at least its width is its first bytes (43_schema.md R128). -/
theorem fieldImage_fieldRead (o : ByteOrder) (t : FieldType) (p : List Byte) (h : t.width ≤ p.length) :
    fieldImage o (fieldRead o t p) = p.take t.width := by
  have four : 4 ≤ p.length → wordImage o (wordAt o p) = p.take 4 := by
    intro h4
    match p, h4 with
    | b0 :: b1 :: b2 :: b3 :: rest, _ => simp [wordAt, wordImage_wordValue]
  cases t with
  | i32 => exact four h
  | f32 => exact four h
  | bytes n => rfl

theorem conforms_fieldRead (o : ByteOrder) (t : FieldType) (p : List Byte) (h : t.width ≤ p.length) :
    (fieldRead o t p).conforms t = true := by
  cases t with
  | i32 => rfl
  | f32 => rfl
  | bytes n => simpa [fieldRead, FieldValue.conforms, FieldType.width] using h

end Machine

end Sys2Proof
end

