-- ==== Sys2Proof/Laws/Codec.lean ====
section
/-! SUPPORT. Laws/Codec.lean: the laws of the function level: sums of altered and reordered sequences, the lengths of
packed payloads, and the checks of `decodeFrame` read byte by byte. -/

namespace Sys2Proof

theorem Config.wf_width {c : Config} (h : c.wf = true) : c.schema.width = c.P := by
  simp only [Config.wf, Bool.and_eq_true, decide_eq_true_eq] at h
  exact h.1.2

theorem Config.wf_accW {c : Config} (h : c.wf = true) : 8 ≤ c.accW := by
  simp only [Config.wf, Bool.and_eq_true, decide_eq_true_eq] at h
  exact h.2

namespace Machine

/-! ### Sums -/

theorem byteSum_perm {a b : List Byte} (h : a.Perm b) : byteSum a = byteSum b := by
  rw [byteSum_eq_sum, byteSum_eq_sum]; exact (h.map _).sum_eq

theorem byteSum_set (b : List Byte) (k : Nat) (v : Byte) (h : k < b.length) :
    byteSum (b.set k v) + b[k].toNat = byteSum b + v.toNat := by
  induction b generalizing k with
  | nil => simp at h
  | cons d b ih =>
    cases k with
    | zero => simp [byteSum]; omega
    | succ k =>
      have := ih k (by simpa using h)
      simp [byteSum]; omega

/-- An accumulator run over a sequence (40_checksum.md R77). -/
theorem foldl_accumulate (w : Nat) (b : List Byte) (n : Nat) :
    b.foldl (accumulate w) (n % 2 ^ w) = (n + byteSum b) % 2 ^ w := by
  induction b generalizing n with
  | nil => simp [byteSum]
  | cons d b ih => simp only [List.foldl_cons, accumulate_sum, ih, byteSum, Nat.add_assoc]

/-! ### Packed payloads -/

theorem length_packFields {o : ByteOrder} {fs : Schema} {x : List FieldValue} (h : fs.admits x = true) :
    (packFields o x).length = fs.width := by
  induction fs generalizing x with
  | nil => cases x <;> simp_all [Schema.admits, packFields, Schema.width]
  | cons f fs ih =>
    cases x with
    | nil => simp [Schema.admits] at h
    | cons v x =>
      simp only [Schema.admits, Bool.and_eq_true] at h
      simp [packFields, Schema.width, length_fieldImage _ _ _ h.1, ih h.2]

theorem length_pack {c : Config} {x : List FieldValue} (h : c.wf = true) (hx : c.schema.admits x = true) :
    (pack c x).length = c.P := by
  rw [pack, length_packFields hx, Config.wf_width h]

@[simp] theorem length_unpackFields (o : ByteOrder) (fs : Schema) (p : List Byte) :
    (unpackFields o fs p).length = fs.length := by
  induction fs generalizing p with
  | nil => rfl
  | cons f fs ih => simp [unpackFields, ih]

@[simp] theorem length_encodeFrame (c : Config) (p : List Byte) : (encodeFrame c p).length = p.length + 3 := by
  simp [encodeFrame]

/-! ### The checks of a frame -/

theorem memRead_one (b : List Byte) (k : Nat) (v : Byte) : memRead b k 1 = [v] ↔ b[k]? = some v := by
  simp only [memRead]
  by_cases h : k < b.length
  · rw [List.drop_eq_getElem_cons h, List.getElem?_eq_getElem h, List.take_succ_cons, List.take_zero]
    simp only [List.cons.injEq, and_true, Option.some.injEq]
  · rw [List.drop_eq_nil_of_le (by omega), List.getElem?_eq_none (by omega)]; simp

/-- `decodeFrame` with its four checks read byte by byte (42_decode.md R99 to R104). -/
theorem decodeFrame_eq (c : Config) (b : List Byte) : decodeFrame c b =
    if b.length ≠ c.P + 3 then .err .lengthMismatch
    else if b[0]? ≠ some c.header then .err .badHeader
    else if b[c.P + 2]? ≠ some c.footer then .err .badFooter
    else if b[c.P + 1]? ≠ some (checksum ((b.drop 1).take c.P)) then .err .checksumMismatch
    else .ok ((b.drop 1).take c.P) := by
  simp only [decodeFrame, ne_eq, memRead_one]
  simp only [eq_comm (a := [checksum _]), memRead_one]
  rfl

/-- What a valid frame is (30_encoding.md R69). -/
theorem decodeFrame_valid {c : Config} {f p : List Byte} (h : decodeFrame c f = .ok p) :
    f.length = c.P + 3 ∧ f[0]? = some c.header ∧ f[c.P + 2]? = some c.footer ∧ p = (f.drop 1).take c.P ∧
      f[c.P + 1]? = some (checksum p) := by
  rw [decodeFrame_eq] at h
  repeat' split at h
  all_goals try cases h
  simp_all

end Machine

end Sys2Proof
end

