-- ==== Sys2Proof/Laws/Ops.lean ====
section
/-! SUPPORT. Laws/Ops.lean: one lemma for each shared operation that says everything it can do, and the frame of
`place`. -/

namespace Sys2Proof.Machine

variable {s t u : State} {d : Byte}

/-! ### Outcomes -/

theorem whenSelected_next {b : Bool} : whenSelected b t = .next u ↔ b = true ∧ u = t := by
  cases b <;> simp [whenSelected, eq_comm]

theorem giveBack_next {v : Ret} : giveBack s v = .next t ↔ t = { s with ret := v } := by
  simp [giveBack, eq_comm]

theorem withSchema_next {k : Host.Outcome State Fault Refusal} :
    withSchema s k = .next t ↔ s.cfg.wf = true ∧ k = .next t := by
  unfold withSchema; split <;> simp_all

theorem andThen_next {o : Host.Outcome State Fault Refusal} {k : State → Host.Outcome State Fault Refusal} :
    andThen o k = .next u ↔ ∃ t, o = .next t ∧ k t = .next u := by
  cases o <;> simp [andThen]

/-! ### Placing an accepted byte -/

/-- Everything `place` can do (42_decode.md section 3). -/
theorem place_cases (d : Byte) (s : State) :
    (s.rxCnt = 0 ∧ place d s = { s with rxHdrOk := d == s.cfg.header }) ∨
    (1 ≤ s.rxCnt ∧ s.rxCnt ≤ s.cfg.P ∧ place d s =
      { s with rxBuf := s.rxBuf.write (s.rxCnt - 1) d, rxSum := accumulate s.cfg.accW s.rxSum d }) ∨
    (s.rxCnt = s.cfg.P + 1 ∧ place d s = { s with rxChk := d }) ∨
    (s.cfg.P + 2 ≤ s.rxCnt ∧ place d s = s) := by
  unfold place
  by_cases h0 : s.rxCnt = 0
  · exact .inl ⟨h0, by rw [if_pos h0]⟩
  by_cases h1 : s.rxCnt ≤ s.cfg.P
  · exact .inr (.inl ⟨by omega, h1, by rw [if_neg h0, if_pos h1]⟩)
  by_cases h2 : s.rxCnt = s.cfg.P + 1
  · exact .inr (.inr (.inl ⟨h2, by rw [if_neg h0, if_neg h1, if_pos h2]⟩))
  · exact .inr (.inr (.inr ⟨by omega, by rw [if_neg h0, if_neg h1, if_neg h2]⟩))

@[simp] theorem place_cfg : (place d s).cfg = s.cfg := by
  rcases place_cases d s with ⟨-, h⟩ | ⟨-, -, h⟩ | ⟨-, h⟩ | ⟨-, h⟩ <;> rw [h]

@[simp] theorem place_txPhase : (place d s).txPhase = s.txPhase := by
  rcases place_cases d s with ⟨-, h⟩ | ⟨-, -, h⟩ | ⟨-, h⟩ | ⟨-, h⟩ <;> rw [h]

@[simp] theorem place_txIdx : (place d s).txIdx = s.txIdx := by
  rcases place_cases d s with ⟨-, h⟩ | ⟨-, -, h⟩ | ⟨-, h⟩ | ⟨-, h⟩ <;> rw [h]

@[simp] theorem place_txSum : (place d s).txSum = s.txSum := by
  rcases place_cases d s with ⟨-, h⟩ | ⟨-, -, h⟩ | ⟨-, h⟩ | ⟨-, h⟩ <;> rw [h]

@[simp] theorem place_txBuf : (place d s).txBuf = s.txBuf := by
  rcases place_cases d s with ⟨-, h⟩ | ⟨-, -, h⟩ | ⟨-, h⟩ | ⟨-, h⟩ <;> rw [h]

@[simp] theorem place_rxCnt : (place d s).rxCnt = s.rxCnt := by
  rcases place_cases d s with ⟨-, h⟩ | ⟨-, -, h⟩ | ⟨-, h⟩ | ⟨-, h⟩ <;> rw [h]

@[simp] theorem place_rxResValid : (place d s).rxResValid = s.rxResValid := by
  rcases place_cases d s with ⟨-, h⟩ | ⟨-, -, h⟩ | ⟨-, h⟩ | ⟨-, h⟩ <;> rw [h]

@[simp] theorem place_rxResCode : (place d s).rxResCode = s.rxResCode := by
  rcases place_cases d s with ⟨-, h⟩ | ⟨-, -, h⟩ | ⟨-, h⟩ | ⟨-, h⟩ <;> rw [h]

@[simp] theorem place_resetSeen : (place d s).resetSeen = s.resetSeen := by
  rcases place_cases d s with ⟨-, h⟩ | ⟨-, -, h⟩ | ⟨-, h⟩ | ⟨-, h⟩ <;> rw [h]

@[simp] theorem place_script : (place d s).script = s.script := by
  rcases place_cases d s with ⟨-, h⟩ | ⟨-, -, h⟩ | ⟨-, h⟩ | ⟨-, h⟩ <;> rw [h]

@[simp] theorem place_ret : (place d s).ret = s.ret := by
  rcases place_cases d s with ⟨-, h⟩ | ⟨-, -, h⟩ | ⟨-, h⟩ | ⟨-, h⟩ <;> rw [h]

theorem place_rxBuf_wf (h : s.rxBuf.wf) : (place d s).rxBuf.wf := by
  rcases place_cases d s with ⟨-, e⟩ | ⟨-, -, e⟩ | ⟨-, e⟩ | ⟨-, e⟩ <;> rw [e]
  · exact h
  · exact Memory.write_wf _ _ _ h
  · exact h
  · exact h

theorem place_rxBuf_within (h : s.rxBuf.within s.cfg.P) : (place d s).rxBuf.within s.cfg.P := by
  rcases place_cases d s with ⟨-, e⟩ | ⟨h0, h1, e⟩ | ⟨-, e⟩ | ⟨-, e⟩ <;> rw [e]
  · exact h
  · exact Memory.write_within _ _ _ _ (by omega) h
  · exact h
  · exact h

end Sys2Proof.Machine
end

