-- ==== Sys2Proof/Laws/Step.lean ====
section
/-! SUPPORT. Laws/Step.lean: what an edge selects, the next state of each unit as a function, and the inversion lemma
of `step`: everything one step can do. -/

namespace Sys2Proof.Machine

variable {s t : State} {p : PortIn}

/-! ### What an edge selects -/

theorem decode_txWord (c : Config) (n : Nat) (ph : TxPhase) (p : PortIn) (h : p.rst = false) :
    decode c .txSelect (txWord n ph p) = .ok (txSelected n ph p) := by
  obtain ⟨rst, v, payload, r, a, b, e, f⟩ := p
  obtain rfl : rst = false := h
  cases ph <;> cases v <;> cases r <;>
    simp [decode, decodeSelector, txWord, lookupRow, txRows, txStepRows, txHoldRows, Row.accepts, codeByte,
      txSelected, leValue_leBytes, TxPhase.code] <;>
    decide

theorem decode_rxWord (c : Config) (rv : Bool) (p : PortIn) (h : p.rst = false) :
    decode c .rxSelect (rxWord rv p) = .ok (rxSelected rv p) := by
  obtain ⟨rst, v, payload, r, a, d, e, f⟩ := p
  obtain rfl : rst = false := h
  cases rv <;> cases a <;> cases e <;> cases f <;>
    simp [decode, decodeSelector, rxWord, lookupRow, rxRows, rxStepRows, rxHoldRows, Row.accepts, codeByte,
      rxSelected, leValue] <;>
    decide

/-! ### The next state of each unit -/

/-- The state after the TX step that the inputs select. -/
def txNext (p : PortIn) (s : State) : State :=
  match s.txPhase with
  | .tIdle =>
    if p.txReqValid then
      { s with txBuf := Memory.ofBytes (portBytes s.cfg.P p.txReqPayload), txSum := 0, txIdx := 0, txPhase := .tHdr }
    else s
  | .tHdr => if p.txOutReady then { s with txPhase := if 1 ≤ s.cfg.P then .tPay else .tChk } else s
  | .tPay =>
    if p.txOutReady then
      { s with
        txSum := accumulate s.cfg.accW s.txSum (presentedByte s)
        txIdx := if s.txIdx + 1 = s.cfg.P then 0 else s.txIdx + 1
        txPhase := if s.txIdx + 1 = s.cfg.P then .tChk else .tPay }
    else s
  | .tChk => if p.txOutReady then { s with txPhase := .tFtr } else s
  | .tFtr => if p.txOutReady then { s with txPhase := .tIdle, txSum := 0 } else s

/-- The state after the RX step that the inputs select. -/
def rxNext (p : PortIn) (s : State) : State :=
  if s.rxResValid then
    if p.rxResReady then takeResult s else s
  else if p.rxInValid then
    if p.rxInLast then
      deliverResult (resultCode s.cfg s.rxCnt s.rxHdrOk s.rxSum s.rxChk p.rxInData) (place p.rxInData s)
    else { place p.rxInData s with rxCnt := min (s.rxCnt + 1) (s.cfg.P + 3) }
  else s

/-- Bits above the port's `8 * P` do not reach a payload byte (10_state.md R16). -/
theorem portBytes_mod (n v : Nat) : portBytes n (v % 256 ^ n) = portBytes n v := by
  have h : portBytes n (portValue (portBytes n v)) = portBytes n v := by
    simpa using portBytes_portValue (portBytes n v)
  rwa [portValue_portBytes] at h

theorem exec_txSelected (p : PortIn) (s : State) :
    exec (txSelected s.cfg.P s.txPhase p) s = .next (txNext p s) := by
  cases h : s.txPhase <;> simp only [txSelected, txNext, h] <;> split <;>
    simp_all [exec, execTxAccept, execTxHdr, execTxPay, execTxChk, execTxFtr, execTxHold, whenSelected, portBytes_mod]

theorem exec_rxSelected (p : PortIn) (s : State) :
    exec (rxSelected s.rxResValid p) s = .next (rxNext p s) := by
  cases h : s.rxResValid <;> simp only [rxSelected, rxNext, h, if_true, if_false, Bool.false_eq_true] <;> split <;>
    first
    | (split <;> simp_all [exec, execRxBeat, execRxLast, whenSelected])
    | simp_all [exec, execRxTake, execRxHold, whenSelected]

theorem txNext_rxResValid : (txNext p s).rxResValid = s.rxResValid := by
  unfold txNext; split <;> split <;> rfl

/-- One edge with `rst = 0`: both units take the step their inputs select (10_state.md R15, 20_memory.md R51). -/
theorem clockEdge_live (hr : p.rst = false) (hs : s.resetSeen = true) :
    clockEdge p s = .next (rxNext p (txNext p s)) := by
  have e : rxWord s.rxResValid p = rxWord (txNext p s).rxResValid p := by rw [txNext_rxResValid]
  simp only [clockEdge, hr, hs, Bool.not_true, Bool.false_eq_true, if_false, runWord, decode_txWord _ _ _ _ hr,
    exec_txSelected, andThen, e, decode_rxWord _ _ _ hr, exec_rxSelected]

/-- A word of a data format, or a function-level call, changes only what the caller gets back
(10_state.md R13). -/
theorem exec_ret {i : Instr} (hi : i.level ≠ .port) (h : exec i s = .next t) : ∃ v, t = { s with ret := v } := by
  cases i <;> first
    | exact absurd rfl hi
    | (simp only [exec, execChecksum, execPack, execUnpack, execEncodeFrame, execEncode, execDecodeFrame, execDecode,
        execFrame, execFrameP0, execFrameP2, execFrameP12, execFrameP16, execFieldI32Little, execFieldI32Big,
        execFieldF32Little, execFieldF32Big, execFieldBytesN, execBeatTxOut, execBeatRxIn, execResOk,
        execResLengthMismatch, execResBadHeader, execResBadFooter, execResChecksumMismatch, execResReserved5,
        execResReserved6, execResReserved7, execPhaseTIdle, execPhaseTHdr, execPhaseTPay, execPhaseTChk,
        execPhaseTFtr, execPhaseReserved5, execPhaseReserved6, execPhaseReserved7, withSchema, giveBack] at h
       repeat' split at h
       all_goals first | (cases h; done) | (cases h; exact ⟨_, rfl⟩))

/-- A word of a format decodes to an instruction of that format. -/
theorem decode_format {c : Config} {f : Format} {w : List Byte} {i : Instr} (h : decode c f w = .ok i) :
    i.format = some f := by
  have hrow : ∀ (rows : List Row) (f : Format), (∀ r ∈ rows, ∀ a b, (r.build a b).format = some f) →
      ∀ a b i, lookupRow rows a b = some i → i.format = some f := by
    intro rows f hf a b i hi
    simp only [lookupRow, Option.map_eq_some_iff] at hi
    obtain ⟨r, hr, rfl⟩ := hi
    exact hf r (List.mem_of_find?_eq_some hr) a b
  have hsel : ∀ (rows : List Row) (f : Format), (∀ r ∈ rows, ∀ a b, (r.build a b).format = some f) →
      ∀ w i, decodeSelector rows w = .ok i → i.format = some f := by
    intro rows f hf w i hi
    cases w with
    | nil => cases hi
    | cons b w =>
      simp only [decodeSelector] at hi
      split at hi
      · cases hi; rename_i e; exact hrow rows f hf _ _ _ e
      · cases hi
  have hcode : ∀ (rows : List Row) (f : Format), (∀ r ∈ rows, ∀ a b, (r.build a b).format = some f) →
      ∀ w i, decodeCode rows w = .ok i → i.format = some f := by
    intro rows f hf w i hi
    unfold decodeCode at hi
    split at hi
    · cases hi
    · split at hi
      · cases hi; rename_i e; exact hrow rows f hf _ _ _ e
      · cases hi
    · cases hi
  have hframe : ∀ (n : Nat) (hd ft : Byte) (w : List Byte) (g : List Byte × Byte → Instr) (f : Format) (i : Instr),
      (∀ x, (g x).format = some f) → (splitFrame n hd ft w).map g = .ok i → i.format = some f := by
    intro n hd ft w g f i hg hi
    cases e : splitFrame n hd ft w with
    | error _ => rw [e] at hi; cases hi
    | ok x => rw [e] at hi; cases hi; exact hg x
  have hfield : ∀ (g : Byte → Byte → Byte → Byte → Instr) (f : Format) (w : List Byte) (i : Instr),
      (∀ a b c d, (g a b c d).format = some f) → decodeField g w = .ok i → i.format = some f := by
    intro g f w i hg hi
    unfold decodeField at hi
    split at hi
    · cases hi; exact hg _ _ _ _
    · cases hi
  cases f with
  | txSelect => exact hsel txRows _ (by simp [txRows, txStepRows, txHoldRows, Instr.format]) _ _ h
  | rxSelect => exact hsel rxRows _ (by simp [rxRows, rxStepRows, rxHoldRows, Instr.format]) _ _ h
  | rst => exact hcode rstRows _ (by simp [rstRows, Instr.format]) _ _ h
  | resultCode => exact hcode resultRows _ (by simp [resultRows, Instr.format]) _ _ h
  | txPhase => exact hcode phaseRows _ (by simp [phaseRows, Instr.format]) _ _ h
  | frame => exact hframe _ _ _ _ _ _ _ (fun _ => rfl) h
  | frameP0 => exact hframe _ _ _ _ _ _ _ (fun _ => rfl) h
  | frameP2 => exact hframe _ _ _ _ _ _ _ (fun _ => rfl) h
  | frameP12 => exact hframe _ _ _ _ _ _ _ (fun _ => rfl) h
  | frameP16 => exact hframe _ _ _ _ _ _ _ (fun _ => rfl) h
  | fieldI32Little => exact hfield _ _ _ _ (fun _ _ _ _ => rfl) h
  | fieldI32Big => exact hfield _ _ _ _ (fun _ _ _ _ => rfl) h
  | fieldF32Little => exact hfield _ _ _ _ (fun _ _ _ _ => rfl) h
  | fieldF32Big => exact hfield _ _ _ _ (fun _ _ _ _ => rfl) h
  | fieldBytes => simp only [decode] at h; split at h <;> cases h; rfl
  | beatTxOut => simp only [decode] at h; repeat' split at h
                 all_goals (cases h; try rfl)
  | beatRxIn => simp only [decode] at h; repeat' split at h
                all_goals (cases h; try rfl)

/-! ### Everything a step can do -/

/-- The inversion lemma of `step`. -/
theorem step_cases (h : step s = .next t) :
    s.cfg.wf = true ∧
    ((∃ p, nextEvent s = .edge p ∧ p.rst = true ∧ t = resetRegisters (popEvent s)) ∨
     (∃ p, nextEvent s = .edge p ∧ p.rst = false ∧ s.resetSeen = true ∧ t = rxNext p (txNext p (popEvent s))) ∨
     (∃ v, livePorts s = none ∧ (nextEvent s).isReset = false ∧ t = { popEvent s with ret := v })) := by
  unfold step runNext at h
  split at h
  · rename_i hwf
    refine ⟨hwf, ?_⟩
    cases he : nextEvent s with
    | edge p =>
      rw [he] at h
      simp only [runEvent] at h
      cases hr : p.rst with
      | true =>
        simp only [clockEdge, hr, if_true, exec, execReset] at h
        cases h
        exact .inl ⟨p, rfl, hr, rfl⟩
      | false =>
        cases hs : s.resetSeen with
        | true =>
          have hs' : (popEvent s).resetSeen = true := hs
          rw [clockEdge_live hr hs'] at h
          cases h
          exact .inr (.inl ⟨p, rfl, hr, rfl, rfl⟩)
        | false =>
          simp [clockEdge, hr, hs] at h
    | call i =>
      rw [he] at h
      simp only [runEvent, callFunction] at h
      split at h
      · rename_i hl
        obtain ⟨v, rfl⟩ := exec_ret (by rw [hl]; exact fun e => by cases e) h
        exact .inr (.inr ⟨v, by simp [livePorts, he], rfl, rfl⟩)
      · cases h
      · cases h
    | datum f w =>
      rw [he] at h
      simp only [runEvent, readDatum] at h
      split at h
      · rename_i hd
        unfold runWord at h
        split at h
        · rename_i i hi
          have hf := decode_format hi
          obtain ⟨v, rfl⟩ := exec_ret (by simp [Instr.level, hf, hd]) h
          exact .inr (.inr ⟨v, by simp [livePorts, he], rfl, rfl⟩)
        · cases h
      · cases h
  · cases h

/-- An edge with `rst = 0` of a legal instance after reset always answers a next state (60_exceptions.md R149). -/
theorem step_live (hwf : s.cfg.wf = true) (hs : s.resetSeen = true) (he : nextEvent s = .edge p)
    (hr : p.rst = false) : step s = .next (rxNext p (txNext p (popEvent s))) := by
  have hs' : (popEvent s).resetSeen = true := hs
  simp only [step, runNext, hwf, if_true, he, runEvent, clockEdge_live hr hs']

/-- An edge with `rst = 1` (70_reset_and_hazards.md R151). -/
theorem step_reset (hwf : s.cfg.wf = true) (he : nextEvent s = .edge p) (hr : p.rst = true) :
    step s = .next (resetRegisters (popEvent s)) := by
  simp only [step, runNext, hwf, if_true, he, runEvent, clockEdge, hr, exec, execReset]

end Sys2Proof.Machine
end

