-- ==== Sys2Proof/Laws/Units.lean ====
section
/-! SUPPORT. Laws/Units.lean: the shares of the two units: what one unit's step leaves alone, and that the outputs and
the RX unit's step depend on its own share only (20_memory.md R51); the first step of a run. -/

namespace Sys2Proof.Machine

variable {s t u : State} {p : PortIn} {n : Nat}

/-! ### Shares -/

theorem SameTx.refl (s : State) : SameTx s s := ⟨rfl, rfl, rfl, rfl, rfl⟩

theorem SameTx.symm (h : SameTx s t) : SameTx t s := by
  simp only [SameTx] at *; simp_all

theorem SameTx.trans (h : SameTx s t) (g : SameTx t u) : SameTx s u := by
  simp only [SameTx] at *; simp_all

theorem SameRx.refl (s : State) : SameRx s s := ⟨rfl, rfl, rfl, rfl, rfl, rfl, rfl, rfl⟩

theorem SameRx.symm (h : SameRx s t) : SameRx t s := by
  simp only [SameRx] at *; simp_all

theorem SameRx.trans (h : SameRx s t) (g : SameRx t u) : SameRx s u := by
  simp only [SameRx] at *; simp_all

theorem SameTx.rxNext (p : PortIn) (s : State) : SameTx s (rxNext p s) := by
  unfold Machine.rxNext SameTx
  repeat' split
  all_goals simp

theorem SameRx.txNext (p : PortIn) (s : State) : SameRx s (txNext p s) := by
  unfold Machine.txNext SameRx; split <;> split <;> simp

theorem SameTx.popEvent (s : State) : SameTx s (popEvent s) := ⟨rfl, rfl, rfl, rfl, rfl⟩

theorem SameRx.popEvent (s : State) : SameRx s (popEvent s) := ⟨rfl, rfl, rfl, rfl, rfl, rfl, rfl, rfl⟩

theorem SameTx.outputs (h : SameTx s t) : txOutputs s = txOutputs t := by
  obtain ⟨h1, h2, h3, h4, h5⟩ := h
  simp [txOutputs, txOutData, h1, h2, h3, h4, h5, presentedByte]

theorem SameRx.outputs (h : SameRx s t) : rxOutputs s = rxOutputs t := by
  obtain ⟨h1, -, -, -, -, h6, h7, h8⟩ := h
  simp [rxOutputs, h1, h6, h7, h8]

/-- The RX unit's next registers depend on its own registers and inputs only. -/
theorem SameRx.step (h : SameRx s t) : SameRx (Machine.rxNext p s) (Machine.rxNext p t) := by
  obtain ⟨h1, h2, h3, h4, h5, h6, h7, h8⟩ := h
  unfold Machine.rxNext place
  simp only [h1, h2, h3, h4, h5, h6, h7, h8]
  repeat' split
  all_goals simp [SameRx, h1, h2, h3, h4, h5, h6, h7, h8, takeResult, deliverResult]

/-- The TX unit's registers after an edge are those of its own step. -/
theorem sameTx_edge (p : PortIn) (s : State) : SameTx (txNext p s) (rxNext p (txNext p (popEvent s))) := by
  have h : SameTx (txNext p s) (txNext p (popEvent s)) := by
    unfold txNext; simp only [popEvent_txPhase]; split <;> split <;> exact ⟨rfl, rfl, rfl, rfl, rfl⟩
  exact h.trans (SameTx.rxNext p _)

/-- The RX unit's registers after an edge are those of its own step. -/
theorem sameRx_edge (p : PortIn) (s : State) : SameRx (rxNext p s) (rxNext p (txNext p (popEvent s))) :=
  SameRx.step ((SameRx.popEvent s).trans (SameRx.txNext p _))

/-! ### What no unit's step changes -/

@[simp] theorem txNext_cfg : (txNext p s).cfg = s.cfg := by
  unfold txNext; split <;> split <;> rfl

@[simp] theorem rxNext_cfg : (rxNext p s).cfg = s.cfg := (SameTx.rxNext p s).1.symm

@[simp] theorem txNext_script : (txNext p s).script = s.script := by
  unfold txNext; split <;> split <;> rfl

@[simp] theorem rxNext_script : (rxNext p s).script = s.script := by
  unfold rxNext
  repeat' split
  all_goals simp

@[simp] theorem txNext_resetSeen : (txNext p s).resetSeen = s.resetSeen := by
  unfold txNext; split <;> split <;> rfl

@[simp] theorem rxNext_resetSeen : (rxNext p s).resetSeen = s.resetSeen := by
  unfold rxNext
  repeat' split
  all_goals simp

/-! ### The first step of a run -/

theorem runSteps_next (h : step s = .next t) : runSteps (n + 1) s = runSteps n t := by simp [runSteps, h]

theorem runSteps_succ (h : runSteps (n + 1) s = some t) : ∃ u, step s = .next u ∧ runSteps n u = some t := by
  simp only [runSteps] at h
  split at h
  · exact ⟨_, by assumption, h⟩
  · cases h
  · cases h

theorem along_next {α : Type} {f : State → List α} (h : step s = .next t) :
    along f (n + 1) s = f s ++ along f n t := by simp [along, h]

theorem noReset_succ (h : NoReset (n + 1) s) : (nextEvent s).isReset = false ∧ NoReset n (popEvent s) := by
  unfold NoReset nextEvent popEvent at *
  cases e : s.script with
  | nil => simp [Event.isReset, PortIn.quiet]
  | cons x xs => rw [e] at h; simp at h; simpa using h

theorem livePorts_edge (h : nextEvent s = .edge p) (hr : p.rst = false) : livePorts s = some p := by
  simp [livePorts, h, hr]

end Sys2Proof.Machine
end

