-- ==== Sys2Proof/Tests/Slice0.lean ====
section
/-! SUPPORT. Tests/Slice0.lean: refused ill-formed terms, one decoded word per row that has a word, worked values of
95_test_vectors.md, and for every obligation with hypotheses a witness that meets them together. Expected values come
from spec/opcode_table.json and spec/95_test_vectors.md. -/

namespace Sys2Proof.Tests

open Sys2Proof Sys2Proof.Machine

/-! ### Small instances and states -/

/-- `P = 2`, one field of two bytes, default constants, `ACC_W = 32` (95_test_vectors.md sections 2.4 to 2.6). -/
def two : Config := { Config.reference with P := 2, schema := [⟨"a", .bytes 2⟩] }

/-- The example of 95_test_vectors.md section 2.2: three bytes and an unaligned integer, `P = 7`. -/
def tagged : Config := { Config.reference with P := 7, schema := [⟨"tag", .bytes 3⟩, ⟨"n", .i32⟩] }

/-- `P = 0`. -/
def zero : Config := { Config.reference with P := 0, schema := [] }

/-- An instance with `P = 2` and `tx_buf = [01, 02]`. -/
def txAt (phase : TxPhase) (idx sum : Nat) : State :=
  { State.resetOf two with txPhase := phase, txIdx := idx, txSum := sum, txBuf := [(0, 0x01), (1, 0x02)] }

/-- An instance with `P = 2` and `rx_buf = [01, 02]`. -/
def rxAt (cnt sum : Nat) (hdrOk : Bool) (chk : Byte) (valid : Bool) (code : ResultCode) : State :=
  { State.resetOf two with
    rxCnt := cnt, rxSum := sum, rxHdrOk := hdrOk, rxChk := chk, rxBuf := [(0, 0x01), (1, 0x02)],
    rxResValid := valid, rxResCode := code }

/-- The state with one event next. -/
def on (e : Event) (s : State) : State := { s with script := [e] }

/-- The TX unit's inputs at an edge. -/
def txIn (v r : Bool) : PortIn := { PortIn.quiet with txReqValid := v, txReqPayload := 0x0201, txOutReady := r }

/-- The RX unit's inputs at an edge. -/
def rxIn (v l r : Bool) (d : Byte) : PortIn :=
  { PortIn.quiet with rxInValid := v, rxInLast := l, rxResReady := r, rxInData := d }

/-- The state an outcome answers, if it answers one. -/
def answer (o : Host.Outcome State Fault Refusal) : Option State :=
  match o with
  | .next t => some t
  | .fault _ => none
  | .refused _ => none

/-- `tx_phase`, `tx_idx`, `tx_sum` of the answer. -/
def txView (o : Host.Outcome State Fault Refusal) : Option (TxPhase × Nat × Nat) :=
  (answer o).map fun t => (t.txPhase, t.txIdx, t.txSum)

/-- The columns of 95_test_vectors.md section 2.6. -/
structure RxRegs where
  cnt   : Nat
  sum   : Nat
  hdrOk : Bool
  chk   : Byte
  valid : Bool
  code  : ResultCode
  deriving DecidableEq, Repr

/-- `rx_cnt`, `rx_sum`, `rx_hdr_ok`, `rx_chk`, `rx_res_valid`, `rx_res_code` of the answer. -/
def rxView (o : Host.Outcome State Fault Refusal) : Option RxRegs :=
  (answer o).map fun t => ⟨t.rxCnt, t.rxSum, t.rxHdrOk, t.rxChk, t.rxResValid, t.rxResCode⟩

/-- What the caller gets back. -/
def retView (o : Host.Outcome State Fault Refusal) : Option Ret := (answer o).map fun t => t.ret

/-! ### Well-formedness: each check refuses an ill-formed term -/

theorem test_wf_pack_too_few : Instr.wf two (.pack []) = false := by decide
theorem test_wf_pack_wrong_type : Instr.wf two (.pack [.i32 0]) = false := by decide
theorem test_wf_pack_wrong_length : Instr.wf two (.pack [.bytes [0x01]]) = false := by decide
theorem test_wf_unpack_length : Instr.wf two (.unpack [0x01]) = false := by decide
theorem test_wf_encodeFrame_length : Instr.wf two (.encodeFrame [0x01, 0x02, 0x03]) = false := by decide
theorem test_wf_encode_too_many : Instr.wf two (.encode [.bytes [0x01, 0x02], .i32 0]) = false := by decide
theorem test_wf_txAccept_width : Instr.wf two (.txAccept 0x10000 false) = false := by decide
theorem test_wf_txHold_request : Instr.wf two (.txHold .tIdle true false) = false := by decide
theorem test_wf_txHold_ready : Instr.wf two (.txHold .tPay false true) = false := by decide
theorem test_wf_rxHold_byte : Instr.wf two (.rxHold false true false false) = false := by decide
theorem test_wf_rxHold_ready : Instr.wf two (.rxHold true false false true) = false := by decide
theorem test_wf_frame_length : Instr.wf two (.frame [0x01] 0x01) = false := by decide
theorem test_wf_fieldBytes_empty : Instr.wf two (.fieldBytesN []) = false := by decide
theorem test_wf_config_width : Config.wf { two with P := 3 } = false := by decide
theorem test_wf_config_bytes0 : Config.wf { zero with schema := [⟨"e", .bytes 0⟩] } = false := by decide
theorem test_wf_config_accW : Config.wf { two with accW := 7 } = false := by decide
theorem test_wf_config_legal : two.wf = true ∧ tagged.wf = true ∧ zero.wf = true ∧ Config.reference.wf = true := by
  decide

/-! ### Decoding: the words of spec/opcode_table.json, written out from the `encoding` column -/

theorem test_decode_txAccept : decode two .txSelect [0b000011, 0x01, 0x02] = .ok (.txAccept 0x0201 true) := by decide
theorem test_decode_txHdr : decode two .txSelect [0b000111] = .ok (.txHdr true) := by decide
theorem test_decode_txPay : decode two .txSelect [0b001001] = .ok (.txPay false) := by decide
theorem test_decode_txChk : decode two .txSelect [0b001111] = .ok (.txChk true) := by decide
theorem test_decode_txFtr : decode two .txSelect [0b010001] = .ok (.txFtr false) := by decide
theorem test_decode_txHold : decode two .txSelect [0b000001] = .ok (.txHold .tIdle false true) ∧
    decode two .txSelect [0b001110] = .ok (.txHold .tChk true false) := by decide
theorem test_decode_rxBeat : decode two .rxSelect [0b00101, 0xAA] = .ok (.rxBeat 0xAA true) := by decide
theorem test_decode_rxLast : decode two .rxSelect [0b00110, 0x55] = .ok (.rxLast 0x55 false) := by decide
theorem test_decode_rxTake : decode two .rxSelect [0b01101] = .ok (.rxTake true false) := by decide
theorem test_decode_rxHold : decode two .rxSelect [0b00010] = .ok (.rxHold false false true false) ∧
    decode two .rxSelect [0b01110] = .ok (.rxHold true true true false) := by decide
theorem test_decode_reset : decode two .rst [0b1] = .ok .reset := by decide
theorem test_decode_frame : decode two .frame [0xAA, 0x01, 0x02, 0x03, 0x55] = .ok (.frame [0x01, 0x02] 0x03) := by
  decide
theorem test_decode_frameP0 : decode two .frameP0 [0xAA, 0x00, 0x55] = .ok (.frameP0 0x00) := by decide
theorem test_decode_frameP2 : decode two .frameP2 [0xAA, 0x01, 0x02, 0x03, 0x55] = .ok (.frameP2 0x0102 0x03) := by
  decide
theorem test_decode_frameP12 :
    decode two .frameP12 [0xAA, 0, 0, 0xC0, 0x3F, 0x2A, 0, 0, 0, 0, 0, 0x50, 0xC0, 0x39, 0x55] =
      .ok (.frameP12 0x0000C03F2A000000000050C0 0x39) := by decide
theorem test_decode_frameP16 :
    decode two .frameP16 [0xAA, 1, 0, 0, 0, 0, 0, 0, 0, 0, 0, 0, 0, 0, 0, 0, 2, 3, 0x55] =
      .ok (.frameP16 0x01000000000000000000000000000002 0x03) := by decide
theorem test_decode_fieldI32Little :
    decode two .fieldI32Little [1, 2, 3, 4] = .ok (.fieldI32Little 1 2 3 4) := by decide
theorem test_decode_fieldI32Big : decode two .fieldI32Big [1, 2, 3, 4] = .ok (.fieldI32Big 1 2 3 4) := by decide
theorem test_decode_fieldF32Little :
    decode two .fieldF32Little [1, 2, 3, 4] = .ok (.fieldF32Little 1 2 3 4) := by decide
theorem test_decode_fieldF32Big : decode two .fieldF32Big [1, 2, 3, 4] = .ok (.fieldF32Big 1 2 3 4) := by decide
theorem test_decode_fieldBytesN : decode two .fieldBytes [0x41, 0x42] = .ok (.fieldBytesN [0x41, 0x42]) := by decide
theorem test_decode_beatTxOut : decode two .beatTxOut [0xAA, 0b10] = .ok (.beatTxOut true false 0xAA) := by decide
theorem test_decode_beatRxIn : decode two .beatRxIn [0x55, 0b1] = .ok (.beatRxIn true 0x55) := by decide

/-- RESULT_CODE, `000` to `111`. -/
theorem test_decode_resultCodes :
    [0b000, 0b001, 0b010, 0b011, 0b100, 0b101, 0b110, 0b111].map (fun b => decode two .resultCode [b]) =
      [.ok .resOk, .ok .resLengthMismatch, .ok .resBadHeader, .ok .resBadFooter, .ok .resChecksumMismatch,
        .ok .resReserved5, .ok .resReserved6, .ok .resReserved7] := by decide

/-- TX_PHASE, `000` to `111`. -/
theorem test_decode_phases :
    [0b000, 0b001, 0b010, 0b011, 0b100, 0b101, 0b110, 0b111].map (fun b => decode two .txPhase [b]) =
      [.ok .phaseTIdle, .ok .phaseTHdr, .ok .phaseTPay, .ok .phaseTChk, .ok .phaseTFtr,
        .ok .phaseReserved5, .ok .phaseReserved6, .ok .phaseReserved7] := by decide

/-- `rst = 1`, the reserved phases and bits above a selector's width are in no row (30_encoding.md R67, R70). -/
theorem test_decode_rejects :
    decode two .txSelect [0b100010] = .error .noRow ∧ decode two .txSelect [0b010101] = .error .noRow ∧
    decode two .txSelect [0x42] = .error .noRow ∧ decode two .rxSelect [0b10100, 0] = .error .noRow ∧
    decode two .rst [0] = .error .noRow ∧ decode two .beatRxIn [0, 2] = .error .noRow ∧
    decode two .frame [0xAA, 1, 2, 3, 0x54] = .error .wrongFooter ∧ decode two .frame [] = .error .wrongLength ∧
    decode two .fieldBytes [] = .error .empty := by decide

/-- The host's table words: FRAME_P12 first byte first, and TX_PAY run as the first instruction after reset. -/
theorem test_table_word :
    decodeTableWord 120 0xAA0000C03F2A000000000050C03955 = some (.frameP12 0x0000C03F2A000000000050C0 0x39) ∧
    decodeTableWord 8 0x09 = some (.txPay false) ∧ decodeTableWord 5 0x09 = some (.rxTake false false) := by decide

theorem test_withFetchWord_txPay : (txView (step (State.reset.withFetchWord 8 0x09))).map (·.2.1) = some 1 := by decide

/-! ### Worked values of 95_test_vectors.md -/

/-- Section 2.1: `FF FF 02` sums to 512, `12 34 56 78` to 276. -/
theorem test_checksum :
    retView (exec (.checksum [0xFF, 0xFF, 0x02]) State.reset) = some (.byte 0x00) ∧
    retView (exec (.checksum [0x12, 0x34, 0x56, 0x78]) State.reset) = some (.byte 0x14) := by decide

/-- Section 2.2: the tagged schema, little and big. -/
theorem test_pack :
    retView (exec (.pack [.bytes [0x41, 0x42, 0x43], .i32 0xFFFFFFFE]) (State.resetOf tagged)) =
      some (.bytes [0x41, 0x42, 0x43, 0xFE, 0xFF, 0xFF, 0xFF]) ∧
    retView (exec (.pack [.bytes [0x41, 0x42, 0x43], .i32 0xFFFFFFFE])
      (State.resetOf { tagged with byteOrder := .big })) =
      some (.bytes [0x41, 0x42, 0x43, 0xFF, 0xFF, 0xFF, 0xFE]) := by decide

/-- Section 2.2: the cross-order hazard, `n = 0xFEFFFFFF`. -/
theorem test_unpack :
    retView (exec (.unpack [0x41, 0x42, 0x43, 0xFE, 0xFF, 0xFF, 0xFF])
      (State.resetOf { tagged with byteOrder := .big })) =
      some (.values [.bytes [0x41, 0x42, 0x43], .i32 0xFEFFFFFF]) := by decide

/-- Section 2.3: `FF 01` has the wrapped checksum `00`. -/
theorem test_encodeFrame :
    retView (exec (.encodeFrame [0xFF, 0x01]) (State.resetOf two)) = some (.bytes [0xAA, 0xFF, 0x01, 0x00, 0x55]) := by
  decide

/-- Part 1, S6: `{my = 1.5, name = 42, target = -3.25}`. -/
theorem test_encode :
    retView (exec (.encode [.f32 0x3FC00000, .i32 42, .f32 0xC0500000]) State.reset) =
      some (.bytes [0xAA, 0, 0, 0xC0, 0x3F, 0x2A, 0, 0, 0, 0, 0, 0x50, 0xC0, 0x39, 0x55]) := by decide

/-- Section 2.4: header and checksum wrong, header wins; footer and checksum wrong, footer wins. -/
theorem test_decodeFrame :
    retView (exec (.decodeFrame [0x00, 0x01, 0x02, 0x09, 0x55]) (State.resetOf two)) =
      some (.frameResult (.err .badHeader)) ∧
    retView (exec (.decodeFrame [0xAA, 0x01, 0x02, 0x00, 0x00]) (State.resetOf two)) =
      some (.frameResult (.err .badFooter)) := by decide

theorem test_decode_values :
    retView (exec (.decode [0xAA, 0, 0, 0xC0, 0x3F, 0x2A, 0, 0, 0, 0, 0, 0x50, 0xC0, 0x39, 0x55]) State.reset) =
      some (.payloadResult (.ok [.f32 0x3FC00000, .i32 42, .f32 0xC0500000])) := by decide

/-- Section 2.5. -/
theorem test_txAccept :
    (answer (exec (.txAccept 0x0201 false) (State.resetOf two))).map (fun t => (t.txPhase, t.txBuf)) =
      some (.tHdr, [(0, 0x01), (1, 0x02)]) := by decide

theorem test_txHdr :
    txView (exec (.txHdr false) (txAt .tHdr 0 0)) = some (.tPay, 0, 0) ∧
    txView (exec (.txHdr false) { State.resetOf zero with txPhase := .tHdr }) = some (.tChk, 0, 0) := by decide

theorem test_txPay :
    txView (exec (.txPay false) (txAt .tPay 0 0)) = some (.tPay, 1, 1) ∧
    txView (exec (.txPay false) (txAt .tPay 1 1)) = some (.tChk, 0, 3) := by decide

/-- The wrap with `ACC_W = 8`: `FF + 01 = 00`. -/
theorem test_txPay_wraps :
    txView (exec (.txPay false) { txAt .tPay 0 0xFF with cfg := { two with accW := 8 } }) = some (.tPay, 1, 0) := by
  decide

theorem test_txChk : txView (exec (.txChk false) (txAt .tChk 0 0x239)) = some (.tFtr, 0, 0x239) := by decide

theorem test_txFtr : txView (exec (.txFtr true) (txAt .tFtr 0 3)) = some (.tIdle, 0, 0) := by decide

/-- The out column of section 2.5 in `T_CHK` with `tx_sum = 0x239` and in `T_FTR`. -/
theorem test_txOutputs :
    txOutputs (txAt .tChk 0 0x239) = ⟨false, true, false, false, 0x39⟩ ∧
    txOutputs (txAt .tFtr 0 3) = ⟨false, true, false, true, 0x55⟩ := by decide

theorem test_txHold : answer (exec (.txHold .tPay true false) (txAt .tPay 1 1)) = some (txAt .tPay 1 1) := by decide

/-- Section 2.6: a wrong header is only remembered; the checksum byte is latched and not added. -/
theorem test_rxBeat :
    rxView (exec (.rxBeat 0xAB false) (rxAt 0 0 false 0 false .ok)) = some ⟨1, 0, false, 0, false, .ok⟩ ∧
    rxView (exec (.rxBeat 0x03 false) (rxAt 3 3 true 0 false .ok)) = some ⟨4, 3, true, 3, false, .ok⟩ := by decide

/-- Section 2.6: the counter saturates at `P + 3`. -/
theorem test_rxBeat_saturates :
    rxView (exec (.rxBeat 0x00 false) (rxAt 5 3 true 3 false .ok)) = some ⟨5, 3, true, 3, false, .ok⟩ := by decide

theorem test_rxLast :
    rxView (exec (.rxLast 0x54 false) (rxAt 4 3 false 4 false .ok)) = some ⟨0, 0, false, 4, true, .badHeader⟩ ∧
    rxView (exec (.rxLast 0x03 false) (rxAt 3 3 true 0 false .ok)) = some ⟨0, 0, false, 3, true, .lengthMismatch⟩ := by
  decide

theorem test_rxLast_ok :
    rxView (exec (.rxLast 0x55 false) (rxAt 4 3 true 3 false .ok)) = some ⟨0, 0, false, 3, true, .ok⟩ := by decide

theorem test_rxTake :
    rxView (exec (.rxTake true false) (rxAt 0 0 false 4 true .checksumMismatch)) = some ⟨0, 0, false, 4, false, .ok⟩ := by
  decide

theorem test_rxHold :
    answer (exec (.rxHold true true false false) (rxAt 0 0 false 3 true .ok)) = some (rxAt 0 0 false 3 true .ok) := by
  decide

/-- Section 2.7. -/
theorem test_rxOutputs :
    (rxOutputs (rxAt 0 0 false 3 true .ok)).resPayload = 0x0201 ∧
    (rxOutputs (rxAt 0 0 false 3 true .checksumMismatch)).resPayload = 0 ∧
    (rxOutputs (rxAt 0 0 false 3 false .ok)).resPayload = 0 := by decide

/-- Sections 2.5 and 2.6: RESET in the middle of a frame keeps the buffers. -/
theorem test_reset :
    (answer (exec .reset (txAt .tPay 1 1))).map (fun t => (t.txPhase, t.txIdx, t.txSum, t.txBuf)) =
      some (.tIdle, 0, 0, [(0, 0x01), (1, 0x02)]) ∧
    rxView (exec .reset (rxAt 3 3 true 7 false .ok)) = some ⟨0, 0, false, 0, false, .ok⟩ := by decide

/-- 30_encoding.md R61 with the pattern `0x12345678` of section 2.2. -/
theorem test_fields :
    retView (exec (.fieldI32Little 0x78 0x56 0x34 0x12) State.reset) = some (.field (.i32 0x12345678)) ∧
    retView (exec (.fieldF32Big 0x3F 0xC0 0x00 0x00) State.reset) = some (.field (.f32 0x3FC00000)) := by decide

theorem test_frameP0 :
    retView (exec (.frameP0 0x01) State.reset) = some (.frame ⟨0xAA, [], 0x01, 0x55, false⟩) := by decide

/-- One edge steps both units: TX_ACCEPT and RX_BEAT together (10_state.md R15). -/
theorem test_edge_steps_both :
    (answer (step (on (.edge { rxIn true false false 0xAA with txReqValid := true, txReqPayload := 0x0201 })
      (State.resetOf two)))).map (fun t => (t.txPhase, t.rxCnt, t.rxHdrOk)) = some (.tHdr, 1, true) := by decide

/-! ### Witnesses: the hypotheses of each obligation, met together -/

/-- A state in the middle of a frame and of a buffer that meets the invariants. -/
def busy : State :=
  { txAt .tPay 1 1 with
    rxCnt := 2, rxSum := 1, rxHdrOk := true, rxBuf := [(0, 0x01)] }

theorem inv_reset (c : Config) : Machine.Inv (State.resetOf c) := by
  constructor <;> constructor <;> simp [State.resetOf, Memory.wf, Memory.within]

theorem inv_busy : Machine.Inv busy := by
  constructor <;> constructor <;> first | decide | (simp [busy, txAt]; done) | skip
  all_goals first
    | exact fun _ => by unfold Memory.written; decide
    | (unfold Memory.within; decide)
    | (intro h; exact absurd h (by decide))

theorem witness_ResetSetsTheRegistersAndKeepsTheBuffers_edge : ∃ (s : State) (p : PortIn) (rest : List Event),
    s.cfg.wf = true ∧ s.script = .edge p :: rest ∧ p.rst = true :=
  ⟨on (.edge { PortIn.quiet with rst := true }) busy, _, [], by decide, rfl, rfl⟩

theorem witness_ResetSetsTheRegistersAndKeepsTheBuffers_again :
    ∃ s t : State, exec .reset s = .next t := ⟨busy, _, rfl⟩

theorem witness_EdgeBeforeTheFirstResetIsRefused :
    ∃ (s : State) (p : PortIn) (rest : List Event), s.cfg.wf = true ∧ s.resetSeen = false ∧
    s.script = .edge p :: rest ∧ p.rst = false :=
  ⟨on (.edge .quiet) { busy with resetSeen := false }, _, [], by decide, rfl, rfl, rfl⟩

theorem witness_IllFormedInstanceIsRefused : (Schema.width two.schema ≠ { two with P := 3 }.P) ∧
    (∃ f ∈ [(⟨"e", .bytes 0⟩ : FieldSpec)], f.ty = .bytes 0) ∧ { two with accW := 7 }.accW < 8 := by decide

theorem witness_NoRunChangesAParameter : (∃ (i : Instr) (s t : State), exec i s = .next t) ∧
    ∃ (s t : State), runSteps 2 s = some t := ⟨⟨.reset, busy, _, rfl⟩, busy, _, rfl⟩

theorem witness_DecodeOfEncodeIsTheInstruction : ∃ w, Instr.wf two (.txAccept 0xFFFF true) = true ∧
    (Instr.txAccept 0xFFFF true).format = some .txSelect ∧ encode two (.txAccept 0xFFFF true) = some w :=
  ⟨_, by decide, rfl, rfl⟩

theorem witness_EncodeOfDecodeIsTheWord : decode two .beatTxOut [0x55, 0x01] = .ok (.beatTxOut false true 0x55) ∧
    Format.beatTxOut.isData = true ∧ decode two .rst [0x01] = .ok .reset := by decide

/-- The boundary selectors of the two tables. -/
theorem witness_SelectorRowsPartitionTheSelectors :
    ([0, 19, 20, 63] : List Nat).all (fun n => decide (n < 64)) = true ∧
    ([0, 15, 16, 31] : List Nat).all (fun n => decide (n < 32)) = true := by decide

theorem witness_EdgeSelectsTheStepOfTheTable : ∃ p : PortIn, p.rst = false := ⟨txIn true true, rfl⟩

theorem witness_StepRunsWhatTheNextEventDecodesTo_edge :
    ∃ (s : State) (p : PortIn) (rest : List Event) (i j : Instr),
    s.cfg.wf = true ∧ s.resetSeen = true ∧ s.script = .edge p :: rest ∧ p.rst = false ∧
    decode s.cfg .txSelect (txWord s.cfg.P s.txPhase p) = .ok i ∧
    decode s.cfg .rxSelect (rxWord s.rxResValid p) = .ok j :=
  ⟨on (.edge (txIn false true)) busy, _, [], .txPay false, .rxHold false false false false,
    by decide, rfl, rfl, rfl, by decide, by decide⟩

theorem witness_StepRunsWhatTheNextEventDecodesTo_call :
    ∃ (s : State) (i : Instr) (rest : List Event), s.cfg.wf = true ∧
    s.script = .call i :: rest ∧ i.level = .function :=
  ⟨on (.call (.checksum [0x01])) busy, _, [], by decide, rfl, rfl⟩

theorem witness_StepRunsWhatTheNextEventDecodesTo_datum :
    ∃ (s : State) (f : Format) (w : List Byte) (i : Instr) (rest : List Event),
    s.cfg.wf = true ∧ s.script = .datum f w :: rest ∧ f.isData = true ∧ decode s.cfg f w = .ok i :=
  ⟨on (.datum .resultCode [0x04]) busy, _, _, .resChecksumMismatch, [], by decide, rfl, rfl, by decide⟩

theorem witness_StepRunsWhatTheNextEventDecodesTo_empty : ∃ s : State, s.script = [] := ⟨busy, rfl⟩

theorem witness_EventsOutsideTheFormatsAreRefused_call :
    ∃ (s : State) (i : Instr) (rest : List Event), s.cfg.wf = true ∧
    s.script = .call i :: rest ∧ i.level ≠ .function :=
  ⟨on (.call (.txHdr true)) busy, _, [], by decide, rfl, by decide⟩

theorem witness_EventsOutsideTheFormatsAreRefused_port :
    ∃ (s : State) (f : Format) (w : List Byte) (rest : List Event), s.cfg.wf = true ∧
    s.script = .datum f w :: rest ∧ f.isData = false :=
  ⟨on (.datum .txSelect [0x02]) busy, _, _, [], by decide, rfl, rfl⟩

theorem witness_EventsOutsideTheFormatsAreRefused_word :
    ∃ (s : State) (f : Format) (w : List Byte) (why : Reject) (rest : List Event),
    s.cfg.wf = true ∧ s.script = .datum f w :: rest ∧ f.isData = true ∧ decode s.cfg f w = .error why :=
  ⟨on (.datum .frame [0xAB, 1, 2, 3, 0x55]) busy, _, _, .wrongHeader, [], by decide, rfl, rfl, by decide⟩

theorem witness_EveryEdgeAfterResetCompletes :
    ∃ (s : State) (p : PortIn) (rest : List Event), s.cfg.wf = true ∧ s.resetSeen = true ∧
    s.script = .edge p :: rest := ⟨on (.edge (rxIn true true true 0x55)) busy, _, [], by decide, rfl, rfl⟩

theorem witness_EveryAccumulatorWidthGivesTheChecksum : ∃ w : Nat, 8 ≤ w := ⟨8, by decide⟩

theorem witness_ChecksumAddsAndIgnoresOrder : [(0x01 : Byte), 0x02].Perm [0x02, 0x01] := by decide

theorem witness_OneChangedByteChangesTheChecksum :
    ∃ (b : List Byte) (k : Nat) (v : Byte), k < b.length ∧ b[k]? ≠ some v :=
  ⟨[0x01, 0x02], 1, 0x82, by decide, by decide⟩

theorem witness_PackWritesEachFieldAtItsOffset :
    ∃ (s : State) (x : List FieldValue) (i : Nat) (f : FieldSpec) (v : FieldValue),
    s.cfg.wf = true ∧ s.cfg.schema.admits x = true ∧ s.cfg.schema[i]? = some f ∧ x[i]? = some v :=
  ⟨State.resetOf tagged, [.bytes [0x41, 0x42, 0x43], .i32 0xFFFFFFFE], 1, _, _, by decide, by decide, rfl, rfl⟩

theorem witness_UnpackReadsEachFieldAtItsOffset :
    ∃ (s : State) (p : List Byte) (i : Nat) (f : FieldSpec), s.cfg.wf = true ∧
    p.length = s.cfg.P ∧ s.cfg.schema[i]? = some f :=
  ⟨State.resetOf tagged, [1, 2, 3, 4, 5, 6, 7], 1, _, by decide, rfl, rfl⟩

theorem witness_PackAndUnpackAreInverse : tagged.wf = true ∧
    tagged.schema.admits [.bytes [0x41, 0x42, 0x43], .i32 0xFFFFFFFE] = true ∧
    [(1 : Byte), 2, 3, 4, 5, 6, 7].length = tagged.P := by decide

theorem witness_EncodeBuildsTheFrame :
    ∃ (s : State) (p : List Byte) (x : List FieldValue), p.length = s.cfg.P ∧ s.cfg.wf = true ∧
    s.cfg.schema.admits x = true :=
  ⟨State.resetOf tagged, [1, 2, 3, 4, 5, 6, 7], [.bytes [0x41, 0x42, 0x43], .i32 0xFFFFFFFE], rfl, by decide, by decide⟩

/-- The five cases, each met by a buffer of 95_test_vectors.md section 2.4. -/
theorem witness_DecodeFrameReportsTheFirstFailedCheck : ∃ s : State, [(0xAA : Byte)].length ≠ s.cfg.P + 3 ∧
    ([(0x00 : Byte), 1, 2, 3, 0][0]? ≠ some s.cfg.header ∧ [(0x00 : Byte), 1, 2, 3, 0].length = s.cfg.P + 3) ∧
    ([(0xAA : Byte), 1, 2, 0, 0][0]? = some s.cfg.header ∧ [(0xAA : Byte), 1, 2, 0, 0].length = s.cfg.P + 3 ∧
      [(0xAA : Byte), 1, 2, 0, 0][s.cfg.P + 2]? ≠ some s.cfg.footer) ∧
    ([(0xAA : Byte), 1, 2, 4, 0x55].length = s.cfg.P + 3 ∧ [(0xAA : Byte), 1, 2, 4, 0x55][0]? = some s.cfg.header ∧
      [(0xAA : Byte), 1, 2, 4, 0x55][s.cfg.P + 2]? = some s.cfg.footer ∧
      [(0xAA : Byte), 1, 2, 4, 0x55][s.cfg.P + 1]? ≠
        some (checksum (([(0xAA : Byte), 1, 2, 4, 0x55].drop 1).take s.cfg.P))) ∧
    ([(0xAA : Byte), 1, 2, 3, 0x55].length = s.cfg.P + 3 ∧ [(0xAA : Byte), 1, 2, 3, 0x55][0]? = some s.cfg.header ∧
      [(0xAA : Byte), 1, 2, 3, 0x55][s.cfg.P + 2]? = some s.cfg.footer ∧
      [(0xAA : Byte), 1, 2, 3, 0x55][s.cfg.P + 1]? =
        some (checksum (([(0xAA : Byte), 1, 2, 3, 0x55].drop 1).take s.cfg.P))) :=
  ⟨State.resetOf two, by decide⟩

theorem witness_DecodeIsUnpackAfterDecodeFrame :
    two.wf = true ∧ decodeFrame two [0xAA, 1, 2, 3, 0x55] = .ok [1, 2] ∧
    decodeFrame two [0xAA, 1, 2, 3, 0x54] = .err .badFooter := by decide

theorem witness_IllTypedArgumentsAreRefused :
    two.wf = true ∧ two.schema.admits [.i32 0] = false ∧ [(1 : Byte)].length ≠ two.P ∧
    Config.wf { two with accW := 7 } = false := by decide

theorem witness_DecodeOfEncodeIsThePayload :
    ∃ (s : State) (x : List FieldValue), s.cfg.wf = true ∧ s.cfg.schema.admits x = true :=
  ⟨State.reset, [.f32 0x3FC00000, .i32 42, .f32 0xC0500000], by decide, by decide⟩

theorem witness_DecodeOfEncodeIsThePayload_bytes :
    ∃ (c : Config) (p : List Byte), p.length = c.P := ⟨two, [0xAA, 0x55], rfl⟩

/-- The first payload byte and, at the other end of the range, the checksum byte. -/
theorem witness_OneAlteredPayloadByteIsAChecksumMismatch : decodeFrame two [0xAA, 1, 2, 3, 0x55] = .ok [1, 2] ∧
    (1 ≤ 1 ∧ 1 ≤ two.P + 1 ∧ [(0xAA : Byte), 1, 2, 3, 0x55][1]? ≠ some 0x81) ∧
    (1 ≤ 3 ∧ 3 ≤ two.P + 1 ∧ [(0xAA : Byte), 1, 2, 3, 0x55][3]? ≠ some 0x00) := by decide

theorem witness_AlteredHeaderOrFooterIsReported :
    decodeFrame two [0xAA, 1, 2, 3, 0x55] = .ok [1, 2] ∧ (0xAB : Byte) ≠ two.header ∧
    (0x54 : Byte) ≠ two.footer := by decide

theorem witness_TruncatedOrPaddedFrameIsALengthMismatch : decodeFrame two [0xAA, 1, 2, 3, 0x55] = .ok [1, 2] ∧
    0 < [(0xAA : Byte), 1, 2, 3, 0x55].length ∧ 4 < [(0xAA : Byte), 1, 2, 3, 0x55].length ∧
    1 ≤ [(0x00 : Byte)].length := by decide

theorem witness_ByteOrderMismatchIsNotDetected : tagged.wf = true ∧
    tagged.schema.admits [.bytes [0x41, 0x42, 0x43], .i32 0xFFFFFFFE] = true := by decide

theorem witness_CallsAndDataTouchNoRegister : ∃ (i : Instr) (s t : State), i.level ≠ .port ∧ exec i s = .next t :=
  ⟨.decodeFrame [0xAA], busy, _, by decide, rfl⟩

theorem witness_TxAcceptCapturesThePayload_selected : ∃ p : PortIn, p.rst = false ∧ p.txReqValid = true :=
  ⟨txIn true false, rfl, rfl⟩

theorem witness_TxAcceptCapturesThePayload :
    ∃ (s : State) (k m : Nat), s.txPhase = .tIdle ∧ k < s.cfg.P ∧ s.cfg.P ≤ m :=
  ⟨State.resetOf two, 1, 2, rfl, by decide, by decide⟩

theorem witness_TxFramingStepsTransferTheirBytes_selected : ∃ p : PortIn, p.rst = false ∧ p.txOutReady = true :=
  ⟨txIn true true, rfl, rfl⟩

theorem witness_TxFramingStepsTransferTheirBytes : (txAt .tHdr 0 0).txPhase = .tHdr ∧ 1 ≤ (txAt .tHdr 0 0).cfg.P ∧
    ({ State.resetOf zero with txPhase := .tHdr } : State).cfg.P = 0 ∧ (txAt .tChk 0 3).txPhase = .tChk ∧
    (txAt .tFtr 0 3).txPhase = .tFtr := by decide

theorem witness_TxPayTransfersAndAddsOneByte_selected : ∃ p : PortIn, p.rst = false ∧ p.txOutReady = true :=
  ⟨txIn false true, rfl, rfl⟩

theorem witness_TxPayTransfersAndAddsOneByte :
    (txAt .tPay 1 1).txPhase = .tPay ∧ (txAt .tPay 1 1).txIdx + 1 = (txAt .tPay 1 1).cfg.P ∧
    (txAt .tPay 0 0).txIdx + 1 ≠ (txAt .tPay 0 0).cfg.P := by decide

theorem witness_HoldsChangeNoRegister : (State.resetOf two).txPhase = .tIdle ∧ (txAt .tPay 1 1).txPhase = .tPay ∧
    (State.resetOf two).rxResValid = false ∧ (rxAt 0 0 false 3 true .ok).rxResValid = true := by decide

theorem witness_UnselectedPortStepsFault :
    busy.txPhase ≠ .tIdle ∧ busy.txPhase ≠ .tHdr ∧ busy.txPhase ≠ .tChk ∧ busy.txPhase ≠ .tFtr ∧
    (State.resetOf two).txPhase ≠ .tPay ∧ busy.rxResValid = false ∧
    (rxAt 0 0 false 3 true .ok).rxResValid = true := by decide

theorem witness_OutputsAreFunctionsOfTheRegisters :
    ∃ (s : State) (k : Nat), s.rxResValid = true ∧ s.rxResCode = .ok ∧ k < s.cfg.P :=
  ⟨rxAt 0 0 false 3 true .ok, 1, rfl, rfl, by decide⟩

theorem witness_OfferedByteIsKeptUntilTransferred :
    ∃ (s : State) (p : PortIn) (rest : List Event), s.cfg.wf = true ∧ s.resetSeen = true ∧
    s.script = .edge p :: rest ∧ p.rst = false ∧ (txOutputs s).valid = true ∧ p.txOutReady = false :=
  ⟨on (.edge (txIn true false)) busy, _, [], by decide, rfl, rfl, rfl, rfl, rfl⟩

theorem witness_PhaseGraphHasNoOtherEdge : ∃ s t : State, step s = .next t := ⟨busy, _, rfl⟩

/-- Three edges, of which two transfer the header and a payload byte. -/
theorem witness_TxUnitComputesEncodeFrame : ∃ (s t : State), TxIdle s ∧ runSteps 3 s = some t ∧ NoReset 3 s :=
  ⟨{ State.resetOf two with script := [.edge (txIn true true), .edge (txIn false true), .edge (txIn false true)] }, _,
    rfl, rfl, by unfold NoReset; decide⟩

theorem witness_FrameCompletesWhileTheTransportIsReady :
    ∃ (s : State) (ins : List PortIn) (rest : List Event), Machine.Inv s ∧ s.cfg.wf = true ∧
    s.resetSeen = true ∧ s.script = ins.map .edge ++ rest ∧ ins.length = s.cfg.P + 3 ∧
    ∀ p ∈ ins, p.rst = false ∧ p.txOutReady = true :=
  ⟨{ busy with script := (List.replicate 5 (txIn false true)).map .edge }, List.replicate 5 (txIn false true), [],
    ⟨⟨inv_busy.1.1, inv_busy.1.2, inv_busy.1.3, inv_busy.1.4, inv_busy.1.5, inv_busy.1.6, inv_busy.1.7,
        inv_busy.1.8, inv_busy.1.9⟩,
      ⟨inv_busy.2.1, inv_busy.2.2, inv_busy.2.3, inv_busy.2.4, inv_busy.2.5, inv_busy.2.6, inv_busy.2.7,
        inv_busy.2.8, inv_busy.2.9, inv_busy.2.10⟩⟩,
    by decide, rfl, by simp, rfl, by decide⟩

theorem witness_RxBeatPlacesAndCountsTheByte_selected :
    ∃ p : PortIn, p.rst = false ∧ p.rxInValid = true ∧ p.rxInLast = false :=
  ⟨rxIn true false true 0xAA, rfl, rfl, rfl⟩

/-- The placements at `rx_cnt` 0, 1, `P`, `P + 1`, `P + 2` and `P + 3`. -/
theorem witness_RxBeatPlacesAndCountsTheByte :
    ∀ n ∈ [0, 1, 2, 3, 4, 5], (rxAt n 0 false 0 false .ok).rxResValid = false := by decide

theorem witness_RxLastDecidesAndDeliversTheResult_selected :
    ∃ p : PortIn, p.rst = false ∧ p.rxInValid = true ∧ p.rxInLast = true :=
  ⟨rxIn true true true 0x55, rfl, rfl, rfl⟩

/-- The five results. -/
theorem witness_RxLastDecidesAndDeliversTheResult :
    (rxAt 3 3 true 3 false .ok).rxCnt ≠ two.P + 2 ∧ (rxAt 4 3 true 3 false .ok).rxCnt = two.P + 2 ∧
    (rxAt 4 3 false 3 false .ok).rxHdrOk = false ∧ (rxAt 4 3 true 3 false .ok).rxHdrOk = true ∧
    (0x54 : Byte) ≠ two.footer ∧ (0x55 : Byte) = two.footer ∧
    BitVec.ofNat 8 (rxAt 4 3 true 4 false .ok).rxSum ≠ (rxAt 4 3 true 4 false .ok).rxChk ∧
    BitVec.ofNat 8 (rxAt 4 3 true 3 false .ok).rxSum = (rxAt 4 3 true 3 false .ok).rxChk := by decide

theorem witness_RxTakeClearsTheResult_selected : ∃ p : PortIn, p.rst = false ∧ p.rxResReady = true :=
  ⟨rxIn true true true 0x55, rfl, rfl⟩

theorem witness_RxTakeClearsTheResult :
    ∃ s : State, s.rxResValid = true := ⟨rxAt 0 0 false 4 true .checksumMismatch, rfl⟩

theorem witness_PendingResultIsHeldAndBlocksTheInput :
    ∃ (s : State) (p : PortIn) (rest : List Event), s.cfg.wf = true ∧ s.resetSeen = true ∧
    s.script = .edge p :: rest ∧ p.rst = false ∧ s.rxResValid = true ∧ p.rxResReady = false :=
  ⟨on (.edge (rxIn true false false 0xAA)) (rxAt 0 0 false 3 true .ok), _, [], by decide, rfl, rfl, rfl, rfl, rfl⟩

/-- At both ends of the range, `rx_cnt = P + 2` and `P + 3`. -/
theorem witness_OverlongBufferIsDiscardedAndReported :
    ∀ n ∈ [4, 5], ∃ (s : State) (ds : List Byte) (d : Byte) (rest : List Event),
    s.rxCnt = n ∧ s.cfg.wf = true ∧ s.resetSeen = true ∧ s.rxResValid = false ∧ s.cfg.P + 2 ≤ s.rxCnt ∧
    s.rxCnt ≤ s.cfg.P + 3 ∧ ds ≠ [] ∧
    s.script =
      (ds.map fun x => Event.edge { PortIn.quiet with rxInValid := true, rxInData := x }) ++
        .edge { PortIn.quiet with rxInValid := true, rxInData := d, rxInLast := true } :: rest := by
  intro n hn
  refine ⟨{ rxAt n 3 true 3 false .ok with
    script := [.edge { PortIn.quiet with rxInValid := true, rxInData := 0x55 },
      .edge { PortIn.quiet with rxInValid := true, rxInData := 0x00, rxInLast := true }] },
    [0x55], 0x00, [], rfl, test_wf_config_legal.1, rfl, rfl, ?_, ?_, by simp, rfl⟩ <;> revert n <;> decide

/-- A buffer of two bytes, accepted with no result taken. -/
theorem witness_RxUnitComputesDecodeFrame :
    ∃ (s t : State) (b : List Byte), Machine.Inv s ∧ RxIdle s ∧ runSteps 2 s = some t ∧
    NoReset 2 s ∧ b ≠ [] ∧ along rxAccept 2 s = bufferBeats b ∧ along rxTaken 2 s = [] :=
  ⟨{ State.resetOf two with script := [.edge (rxIn true false false 0xAA), .edge (rxIn true true false 0x55)] }, _,
    [0xAA, 0x55],
    by constructor <;> constructor <;> simp [State.resetOf, Memory.wf, Memory.within],
    ⟨rfl, rfl⟩, rfl, by unfold NoReset; decide, by decide, rfl, rfl⟩

theorem witness_ResultsFollowTheBuffersInOrder :
    ∃ (s t : State), Machine.Inv s ∧ RxIdle s ∧ runSteps 2 s = some t ∧ NoReset 2 s :=
  ⟨{ State.resetOf two with script := [.edge (rxIn true true false 0xAA), .edge (rxIn false false true 0x00)] }, _,
    by constructor <;> constructor <;> simp [State.resetOf, Memory.wf, Memory.within],
    ⟨rfl, rfl⟩, rfl, by unfold NoReset; decide⟩

theorem witness_EveryStepKeepsTheInvariants :
    ∃ s t : State, Machine.Inv s ∧ step s = .next t := ⟨busy, _, inv_busy, rfl⟩

theorem witness_UnitsAreIndependent : ∃ (s s' t t' : State) (p p' : PortIn) (rest rest' : List Event),
    s.script = .edge p :: rest ∧ s'.script = .edge p' :: rest' ∧ p.rst = p'.rst ∧ step s = .next t ∧
    step s' = .next t' ∧ SameTx s s' ∧ p.txReqValid = p'.txReqValid ∧ p.txReqPayload = p'.txReqPayload ∧
    p.txOutReady = p'.txOutReady ∧ ¬ SameRx s s' :=
  ⟨on (.edge .quiet) (State.resetOf two), on (.edge (rxIn true false false 0xAA)) { State.resetOf two with rxCnt := 1 },
    _, _, _, _, [], [], rfl, rfl, rfl, rfl, rfl, ⟨rfl, rfl, rfl, rfl, rfl⟩, rfl, rfl, rfl,
    by unfold SameRx; decide⟩

theorem witness_UnitsAreIndependent_rx :
    ∃ (s s' : State) (p p' : PortIn), SameRx s s' ∧ p.rxInValid = p'.rxInValid ∧
    p.rxInData = p'.rxInData ∧ p.rxInLast = p'.rxInLast ∧ p.rxResReady = p'.rxResReady ∧ ¬ SameTx s s' :=
  ⟨State.resetOf two, txAt .tPay 1 1, .quiet, txIn true true, ⟨rfl, rfl, rfl, rfl, rfl, rfl, rfl, rfl⟩,
    rfl, rfl, rfl, rfl, by unfold SameTx; decide⟩

theorem witness_UnitStepsCommute : (Instr.txPay true).format = some .txSelect ∧
    (Instr.rxBeat 0xAA false).format = some .rxSelect := by decide

/-- Two idle states with different buffers and checksum bytes. -/
theorem witness_IdleStatesAreEquivalent :
    ∃ s s' : State, Machine.Inv s ∧ Machine.Inv s' ∧ TxIdle s ∧ RxIdle s ∧ TxIdle s' ∧
    RxIdle s' ∧ s.cfg = s'.cfg ∧ s.script = s'.script ∧ s.resetSeen = s'.resetSeen ∧ s.txBuf ≠ s'.txBuf ∧
    s.rxChk ≠ s'.rxChk :=
  ⟨State.resetOf two, { State.resetOf two with txBuf := [(0, 0x01)], rxChk := 0x03 }, inv_reset two,
    by constructor <;> constructor <;> simp [State.resetOf, two, Memory.wf, Memory.within],
    rfl, ⟨rfl, rfl⟩, rfl, ⟨rfl, rfl⟩, rfl, rfl, rfl, by decide, by decide⟩

theorem witness_LoopBackDeliversThePayload :
    ∃ (s : State) (payload : Nat), Machine.Inv s ∧ s.cfg.wf = true ∧ s.resetSeen = true ∧
    TxIdle s ∧ RxIdle s ∧ payload < 256 ^ s.cfg.P :=
  ⟨State.resetOf two, 0xFFFF, inv_reset two, by decide, rfl, rfl, ⟨rfl, rfl⟩, by decide⟩

theorem witness_EveryStateCanReturnToIdleWithoutReset :
    ∃ s : State, Machine.Inv s ∧ s.cfg.wf = true ∧ s.resetSeen = true :=
  ⟨busy, inv_busy, by decide, rfl⟩

theorem witness_FrameRowsGiveTheirParts : [(0x01 : Byte), 0x02].length = (State.resetOf two).cfg.P ∧
    [(0x01 : Byte)].length ≠ (State.resetOf two).cfg.P ∧ 11 < 12 ∧ 15 < 16 := by decide

theorem witness_FieldRowsGiveTheirPattern : 1 ≤ [(0x41 : Byte)].length := by decide

end Sys2Proof.Tests
end

section
/-! The output equations of both units (10_state.md R31, R32): bytes of a payload port value, the payload port of the RX
unit, and the statement about all outputs. -/

namespace Sys2Proof.Machine

/-! ### Bytes of a payload port value -/

/-- Dividing by `256 ^ k` and taking the slice from bit `8 * k` up are the same reading of a port byte (R16). -/
theorem portByte_eq_shiftRight (v k : Nat) : portByte v k = BitVec.ofNat 8 (v >>> (8 * k)) := by
  rw [portByte, Nat.shiftRight_eq_div_pow, Nat.pow_mul]

theorem portByte_portValue (p : List Byte) (k : Nat) (h : k < p.length) : portByte (portValue p) k = p[k] := by
  have hk : (portBytes p.length (portValue p))[k]? = p[k]? := by rw [portBytes_portValue]
  simpa [portBytes, h] using hk

theorem portValue_lt (p : List Byte) : portValue p < 256 ^ p.length := leValue_lt p

@[simp] theorem Memory.getElem_bytes (b : Buffer) (m : Memory) (n k : Nat) (h : k < (m.bytes b n).length) :
    (m.bytes b n)[k] = m.read b k := by
  simp [Memory.bytes]

/-- Byte `k` of the port value of a buffer is what the buffer reads at offset `k`. -/
theorem shiftRight_portValue_bytes (b : Buffer) (m : Memory) (n k : Nat) (h : k < n) :
    BitVec.ofNat 8 (portValue (m.bytes b n) >>> (8 * k)) = m.read b k := by
  rw [← portByte_eq_shiftRight, portByte_portValue _ k (by simpa using h), Memory.getElem_bytes]

/-! ### The outputs, port by port -/

theorem txOutputs_reqReady_iff (s : State) : (txOutputs s).reqReady = true ↔ s.txPhase = .tIdle := beq_iff_eq

theorem txOutputs_valid_iff (s : State) : (txOutputs s).valid = true ↔ s.txPhase ≠ .tIdle := bne_iff_ne

theorem txOutputs_first_iff (s : State) : (txOutputs s).first = true ↔ s.txPhase = .tHdr := beq_iff_eq

theorem txOutputs_last_iff (s : State) : (txOutputs s).last = true ↔ s.txPhase = .tFtr := beq_iff_eq

theorem txOutputs_data (s : State) : (txOutputs s).data = txOutData s := rfl

theorem rxOutputs_inReady_iff (s : State) : (rxOutputs s).inReady = true ↔ s.rxResValid = false :=
  iff_of_eq (Bool.not_eq_true' s.rxResValid)

theorem rxOutputs_resPayload_of_ok (s : State) (hv : s.rxResValid = true) (hc : s.rxResCode = .ok) :
    (rxOutputs s).resPayload = portValue (s.rxBuf.bytes .rx s.cfg.P) := by
  simp [rxOutputs, hv, hc]

/-- The mask of R32: nothing of a rejected or absent buffer reaches the payload port. -/
theorem rxOutputs_resPayload_of_not_ok (s : State) (h : ¬ (s.rxResValid = true ∧ s.rxResCode = .ok)) :
    (rxOutputs s).resPayload = 0 := by
  simpa [rxOutputs] using fun hv hc => absurd ⟨hv, hc⟩ h

/-! ### The statement -/

/-- Settles O36: one equation per port; under the mask the payload port is the port value of the buffer's bytes. -/
theorem outputsAreFunctionsOfTheRegisters : Obligations.OutputsAreFunctionsOfTheRegisters := by
  unfold Obligations.OutputsAreFunctionsOfTheRegisters
  refine ⟨fun s => ?_, fun s => ?_⟩
  · refine ⟨txOutputs_reqReady_iff s, txOutputs_valid_iff s, txOutputs_first_iff s, txOutputs_last_iff s, ?_⟩
    refine ⟨?hdr, ?pay, ?chk, ?ftr, ?idle⟩ <;> intro h <;>
      simp only [txOutputs_data, txOutData, h, presentedByte, lowByte]
  · refine ⟨rxOutputs_inReady_iff s, rfl, rfl, fun hv hc => ?_, rxOutputs_resPayload_of_not_ok s⟩
    rw [rxOutputs_resPayload_of_ok s hv hc]
    exact ⟨by simpa using portValue_lt (s.rxBuf.bytes .rx s.cfg.P), shiftRight_portValue_bytes .rx s.rxBuf s.cfg.P⟩

end Sys2Proof.Machine
end

section
/-! Reserved encodings (30_encoding.md R70). -/

namespace Sys2Proof.Machine

/-- Settles O58: each of the six instructions is dispatched to a meaning that does not look at the state. -/
theorem reservedCodesAndPhasesAreRefused : Obligations.ReservedCodesAndPhasesAreRefused := by
  unfold Obligations.ReservedCodesAndPhasesAreRefused
  exact fun _ => ⟨rfl, rfl, rfl, rfl, rfl, rfl⟩

end Sys2Proof.Machine
end

section
/-! The CHECKSUM operation (40_checksum.md R76). -/

namespace Sys2Proof.Machine

theorem checksum_eq_ofNat_sum (b : List Byte) : checksum b = BitVec.ofNat 8 ((b.map BitVec.toNat).sum % 256) := by
  rw [checksum, byteSum_eq_sum]

/-- CHECKSUM answers in every state, and writes only the value given back. -/
theorem exec_checksum (b : List Byte) (s : State) : exec (.checksum b) s = .next { s with ret := .byte (checksum b) } :=
  rfl

/-- Settles O14: the recursive byte sum of the model is the sum of the bytes read as unsigned integers. -/
theorem checksumIsTheByteSumModulo256 : Obligations.ChecksumIsTheByteSumModulo256 := by
  unfold Obligations.ChecksumIsTheByteSumModulo256
  intro b s
  rw [exec_checksum, checksum_eq_ofNat_sum]

end Sys2Proof.Machine
end

section
/-! The ENCODE operations (41_encode.md R85 to R87). -/

namespace Sys2Proof.Machine

theorem exec_encodeFrame {s : State} {p : List Byte} (hp : p.length = s.cfg.P) :
    exec (.encodeFrame p) s = .next { s with ret := .bytes (encodeFrame s.cfg p) } :=
  if_pos hp

theorem exec_encode {s : State} {x : List FieldValue} (hc : s.cfg.wf = true) (hx : s.cfg.schema.admits x = true) :
    exec (.encode x) s = .next { s with ret := .bytes (encodePayload s.cfg x) } :=
  withSchema_next.2 ⟨hc, if_pos hx⟩

theorem length_encodePayload {c : Config} {x : List FieldValue} (hc : c.wf = true) (hx : c.schema.admits x = true) :
    (encodePayload c x).length = c.P + 3 := by
  rw [encodePayload, length_encodeFrame, length_pack hc hx]

/-- Settles O21: a packed payload has `P` bytes, so ENCODE is ENCODE_FRAME of it. -/
theorem encodeBuildsTheFrame : Obligations.EncodeBuildsTheFrame := by
  unfold Obligations.EncodeBuildsTheFrame
  refine ⟨fun s p hp => ?_, fun s x hc hx => ?_⟩
  · exact ⟨_, exec_encodeFrame hp, rfl, by rw [length_encodeFrame, hp]⟩
  · exact ⟨_, exec_encode hc hx, rfl, length_encodePayload hc hx⟩

end Sys2Proof.Machine
end

section
/-! The five steps of the TX unit (41_encode.md R91 to R95): the effect of each in the phase that selects it, the
outputs in a phase, and the captured payload. -/

namespace Sys2Proof.Machine

variable {s : State}

/-! ### The effect of each step in its phase -/

theorem exec_txAccept (payload : Nat) (r : Bool) (h : s.txPhase = .tIdle) :
    exec (.txAccept payload r) s = .next
      { s with txBuf := Memory.ofBytes (portBytes s.cfg.P payload), txSum := 0, txIdx := 0, txPhase := .tHdr } :=
  whenSelected_next.2 ⟨beq_iff_eq.2 h, rfl⟩

theorem exec_txHdr (v : Bool) (h : s.txPhase = .tHdr) :
    exec (.txHdr v) s = .next { s with txPhase := if 1 ≤ s.cfg.P then .tPay else .tChk } :=
  whenSelected_next.2 ⟨beq_iff_eq.2 h, rfl⟩

theorem exec_txPay (v : Bool) (h : s.txPhase = .tPay) :
    exec (.txPay v) s = .next
      { s with
        txSum := accumulate s.cfg.accW s.txSum (presentedByte s)
        txIdx := if s.txIdx + 1 = s.cfg.P then 0 else s.txIdx + 1
        txPhase := if s.txIdx + 1 = s.cfg.P then .tChk else .tPay } :=
  whenSelected_next.2 ⟨beq_iff_eq.2 h, rfl⟩

theorem exec_txChk (v : Bool) (h : s.txPhase = .tChk) : exec (.txChk v) s = .next { s with txPhase := .tFtr } :=
  whenSelected_next.2 ⟨beq_iff_eq.2 h, rfl⟩

theorem exec_txFtr (v : Bool) (h : s.txPhase = .tFtr) :
    exec (.txFtr v) s = .next { s with txPhase := .tIdle, txSum := 0 } :=
  whenSelected_next.2 ⟨beq_iff_eq.2 h, rfl⟩

/-! ### The outputs in a phase -/

/-- With the phase written into the state, every output equation of R31 evaluates. -/
theorem txOutputs_of_txPhase {ph : TxPhase} (h : s.txPhase = ph) :
    txOutputs s = txOutputs { s with txPhase := ph } := by
  rw [← h]

/-! ### The captured payload -/

theorem getElem?_portBytes {n k : Nat} (v : Nat) (h : k < n) : (portBytes n v)[k]? = some (portByte v k) := by
  simp [portBytes, h]

/-- An offset of the captured payload holds its slice of the port (R16). -/
theorem lookup_captured {n k : Nat} (v : Nat) (h : k < n) :
    (Memory.ofBytes (portBytes n v)).lookup k = some (BitVec.ofNat 8 (v >>> (8 * k))) := by
  rw [Memory.lookup_ofBytes, getElem?_portBytes v h, portByte_eq_shiftRight]

theorem lookup_captured_beyond {n k : Nat} (v : Nat) (h : n ≤ k) :
    (Memory.ofBytes (portBytes n v)).lookup k = none := by
  rw [Memory.lookup_ofBytes, List.getElem?_eq_none (by simpa using h)]

/-! ### The statements -/

/-- Settles O31: the buffer captured is the list of the port's slices, read offset by offset. -/
theorem txAcceptCapturesThePayload : Obligations.TxAcceptCapturesThePayload := by
  unfold Obligations.TxAcceptCapturesThePayload
  refine ⟨fun c p hrst hreq => ?_, fun s payload r h => ?_⟩
  · simp only [decode_txWord c c.P _ p hrst, txSelected, hreq, if_true]
  · exact ⟨congrArg TxOut.valid (txOutputs_of_txPhase h), _, exec_txAccept payload r h,
      fun _ => lookup_captured payload, fun _ => lookup_captured_beyond payload⟩

/-- Settles O32: the header step branches on `P`, the checksum and footer steps have one successor each. -/
theorem txFramingStepsTransferTheirBytes : Obligations.TxFramingStepsTransferTheirBytes := by
  unfold Obligations.TxFramingStepsTransferTheirBytes
  refine ⟨fun c p hrst hready => ?_, fun s v h => ⟨txOutputs_of_txPhase h, fun hP => ?_, fun hP => ?_⟩,
    fun s v h => ⟨txOutputs_of_txPhase h, exec_txChk v h⟩, fun s v h => ⟨txOutputs_of_txPhase h, exec_txFtr v h⟩⟩
  · simp only [decode_txWord c c.P _ p hrst, txSelected, hready, if_true, and_self]
  · rw [exec_txHdr v h, if_pos hP]
  · rw [exec_txHdr v h, if_neg (by omega)]

/-- Settles O33: the last payload byte and the bytes before it are the two branches of the index and the phase. -/
theorem txPayTransfersAndAddsOneByte : Obligations.TxPayTransfersAndAddsOneByte := by
  unfold Obligations.TxPayTransfersAndAddsOneByte
  refine ⟨fun c p hrst hready => ?_, fun s v h => ⟨txOutputs_of_txPhase h, fun hlast => ?_, fun hmore => ?_⟩⟩
  · simp only [decode_txWord c c.P _ p hrst, txSelected, hready, if_true]
  · simp only [exec_txPay v h, if_pos hlast, accumulate, presentedByte]
  · simp only [exec_txPay v h, if_neg hmore, accumulate, presentedByte, h]

end Sys2Proof.Machine
end

section
/-! The DECODE operations (42_decode.md R99 to R112): what each answers, the five outcomes of the frame's checks, the
round trip, and frames that were altered, truncated or padded. -/

namespace Sys2Proof.Machine

variable {c : Config} {s : State} {b p : List Byte} {x : List FieldValue}

/-! ### What the operations answer -/

theorem exec_decodeFrame (b : List Byte) (s : State) :
    exec (.decodeFrame b) s = .next { s with ret := .frameResult (decodeFrame s.cfg b) } :=
  rfl

theorem exec_decode (b : List Byte) (hc : s.cfg.wf = true) :
    exec (.decode b) s = .next { s with ret := .payloadResult (decodePayload s.cfg b) } :=
  withSchema_next.2 ⟨hc, rfl⟩

theorem decodePayload_of_ok (h : decodeFrame c b = .ok p) : decodePayload c b = .ok (unpack c p) := by
  rw [decodePayload, h]

theorem decodePayload_of_err {e : FrameError} (h : decodeFrame c b = .err e) : decodePayload c b = .err e := by
  rw [decodePayload, h]

/-! ### The outcomes of the checks, in their order -/

theorem decodeFrame_lengthMismatch (hl : b.length ≠ c.P + 3) : decodeFrame c b = .err .lengthMismatch := by
  rw [decodeFrame_eq, if_pos hl]

theorem decodeFrame_badHeader (hl : b.length = c.P + 3) (hh : b[0]? ≠ some c.header) :
    decodeFrame c b = .err .badHeader := by
  rw [decodeFrame_eq, if_neg (not_not.2 hl), if_pos hh]

theorem decodeFrame_badFooter (hl : b.length = c.P + 3) (hh : b[0]? = some c.header)
    (hf : b[c.P + 2]? ≠ some c.footer) : decodeFrame c b = .err .badFooter := by
  rw [decodeFrame_eq, if_neg (not_not.2 hl), if_neg (not_not.2 hh), if_pos hf]

theorem decodeFrame_checksumMismatch (hl : b.length = c.P + 3) (hh : b[0]? = some c.header)
    (hf : b[c.P + 2]? = some c.footer) (hk : b[c.P + 1]? ≠ some (checksum ((b.drop 1).take c.P))) :
    decodeFrame c b = .err .checksumMismatch := by
  rw [decodeFrame_eq, if_neg (not_not.2 hl), if_neg (not_not.2 hh), if_neg (not_not.2 hf), if_pos hk]

theorem decodeFrame_ok (hl : b.length = c.P + 3) (hh : b[0]? = some c.header) (hf : b[c.P + 2]? = some c.footer)
    (hk : b[c.P + 1]? = some (checksum ((b.drop 1).take c.P))) : decodeFrame c b = .ok ((b.drop 1).take c.P) := by
  rw [decodeFrame_eq, if_neg (not_not.2 hl), if_neg (not_not.2 hh), if_neg (not_not.2 hf), if_neg (not_not.2 hk)]

/-! ### The round trip -/

/-- The bytes of a built frame by offset (41_encode.md R85). -/
theorem encodeFrame_layout (hp : p.length = c.P) :
    (encodeFrame c p)[0]? = some c.header ∧ ((encodeFrame c p).drop 1).take c.P = p ∧
      (encodeFrame c p)[c.P + 1]? = some (checksum p) ∧ (encodeFrame c p)[c.P + 2]? = some c.footer := by
  simp [encodeFrame, ← hp]

theorem decodeFrame_encodeFrame (hp : p.length = c.P) : decodeFrame c (encodeFrame c p) = .ok p := by
  obtain ⟨hheader, hpayload, hchecksum, hfooter⟩ := encodeFrame_layout hp
  have hlength : (encodeFrame c p).length = c.P + 3 := by rw [length_encodeFrame, hp]
  rw [decodeFrame_ok hlength hheader hfooter (by rw [hpayload, hchecksum]), hpayload]

/-- The image of the first field is as long as its type is wide, so what follows it is the images of the others. -/
theorem unpackFields_packFields (o : ByteOrder) {fs : Schema} (hx : Schema.admits fs x = true) :
    unpackFields o fs (packFields o x) = x := by
  induction fs generalizing x with
  | nil => cases x with
    | nil => rfl
    | cons v x => simp [Schema.admits] at hx
  | cons fld fs ih => cases x with
    | nil => simp [Schema.admits] at hx
    | cons v x =>
      obtain ⟨hv, hrest⟩ : v.conforms fld.ty = true ∧ Schema.admits fs x = true := by simpa [Schema.admits] using hx
      rw [packFields, unpackFields, fieldRead_fieldImage o v fld.ty _ hv,
        List.drop_left' (length_fieldImage o v fld.ty hv), ih hrest]

theorem unpack_pack (hx : c.schema.admits x = true) : unpack c (pack c x) = x :=
  unpackFields_packFields c.byteOrder hx

theorem decodePayload_encodePayload (hc : c.wf = true) (hx : c.schema.admits x = true) :
    decodePayload c (encodePayload c x) = .ok x := by
  rw [encodePayload, decodePayload_of_ok (decodeFrame_encodeFrame (length_pack hc hx)), unpack_pack hx]

/-! ### The statements -/

/-- Settles O25: the frame of a packed payload passes the four checks, and unpacking, by induction on the schema,
gives the values back. -/
theorem decodeOfEncodeIsThePayload : Obligations.DecodeOfEncodeIsThePayload := by
  unfold Obligations.DecodeOfEncodeIsThePayload
  refine ⟨fun s x hc hx => ⟨_, exec_encode hc hx, ?_⟩, fun s p hp => ⟨_, exec_encodeFrame hp, ?_⟩⟩
  · rw [exec_decode _ hc, decodePayload_encodePayload hc hx]
  · rw [exec_decodeFrame, decodeFrame_encodeFrame hp]

/-- Settles O22: one clause per outcome of the checks. -/
theorem decodeFrameReportsTheFirstFailedCheck : Obligations.DecodeFrameReportsTheFirstFailedCheck := by
  unfold Obligations.DecodeFrameReportsTheFirstFailedCheck
  exact fun s b => ⟨_, exec_decodeFrame b s, decodeFrame_lengthMismatch, decodeFrame_badHeader, decodeFrame_badFooter,
    decodeFrame_checksumMismatch, decodeFrame_ok⟩

/-- Settles O27: the altered byte is the first check that fails, since the length and, for the footer, the header are
those of the valid frame. -/
theorem alteredHeaderOrFooterIsReported : Obligations.AlteredHeaderOrFooterIsReported := by
  unfold Obligations.AlteredHeaderOrFooterIsReported
  intro c f p hvalid
  obtain ⟨hlength, hheader, -⟩ := decodeFrame_valid hvalid
  refine ⟨fun v hv => ?header, fun v hv => ?footer, fun v w hv hw => ?both⟩
  case header => exact decodeFrame_badHeader (by simp [hlength]) (by simp [hlength, hv])
  case footer => exact decodeFrame_badFooter (by simp [hlength]) (by simp [hheader]) (by simp [hlength, hv])
  case both => exact decodeFrame_badHeader (by simp [hlength]) (by simp [hlength, hv])

/-- Settles O28: the length of a valid frame is `P + 3`, and truncating or padding changes it. -/
theorem truncatedOrPaddedFrameIsALengthMismatch : Obligations.TruncatedOrPaddedFrameIsALengthMismatch := by
  unfold Obligations.TruncatedOrPaddedFrameIsALengthMismatch
  intro c f p hvalid
  obtain ⟨hlength, -⟩ := decodeFrame_valid hvalid
  refine ⟨fun n hn => ?_, fun t ht => ⟨?_, ?_⟩⟩
  · exact decodeFrame_lengthMismatch (by rw [List.length_take]; omega)
  · exact decodeFrame_lengthMismatch (by rw [List.length_append]; omega)
  · exact decodeFrame_lengthMismatch (by rw [List.length_append]; omega)

/-- Settles O23: the two outcomes of DECODE_FRAME are the two cases of DECODE. -/
theorem decodeIsUnpackAfterDecodeFrame : Obligations.DecodeIsUnpackAfterDecodeFrame := by
  unfold Obligations.DecodeIsUnpackAfterDecodeFrame
  exact fun s b hc => ⟨_, exec_decode b hc, fun _ => decodePayload_of_ok, fun _ => decodePayload_of_err⟩

end Sys2Proof.Machine
end

section
/-! The three steps of the RX unit (42_decode.md R113 to R115): the effect of each where it is selected, the placement
of the accepted byte as one update, and the decided result case by case. -/

namespace Sys2Proof.Machine

variable {s : State} {d : Byte}

/-! ### The effect of each step where it is selected -/

theorem exec_rxBeat (d : Byte) (r : Bool) (h : s.rxResValid = false) :
    exec (.rxBeat d r) s = .next { place d s with rxCnt := min (s.rxCnt + 1) (s.cfg.P + 3) } :=
  whenSelected_next.2 ⟨by rw [h]; rfl, rfl⟩

theorem exec_rxLast (d : Byte) (r : Bool) (h : s.rxResValid = false) :
    exec (.rxLast d r) s = .next
      (deliverResult (resultCode s.cfg s.rxCnt s.rxHdrOk s.rxSum s.rxChk d) (place d s)) :=
  whenSelected_next.2 ⟨by rw [h]; rfl, rfl⟩

theorem exec_rxTake (v l : Bool) (h : s.rxResValid = true) : exec (.rxTake v l) s = .next (takeResult s) :=
  whenSelected_next.2 ⟨h, rfl⟩

theorem rxOutputs_takeResult (s : State) :
    rxOutputs (takeResult s) = { inReady := true, resValid := false, resCode := .ok, resPayload := 0 } :=
  rfl

/-! ### The placement of the accepted byte -/

/-- `rx_buf` after the placement: the byte is stored at offsets 1 to `P` of the frame and nowhere else. -/
def placedBuf (d : Byte) (s : State) : Memory :=
  if 1 ≤ s.rxCnt ∧ s.rxCnt ≤ s.cfg.P then s.rxBuf.write (s.rxCnt - 1) d else s.rxBuf

theorem lookup_placedBuf (d : Byte) (s : State) (k : Nat) :
    (placedBuf d s).lookup k =
      if 1 ≤ s.rxCnt ∧ s.rxCnt ≤ s.cfg.P ∧ k = s.rxCnt - 1 then some d else s.rxBuf.lookup k := by
  unfold placedBuf
  by_cases h : 1 ≤ s.rxCnt ∧ s.rxCnt ≤ s.cfg.P
  · rw [if_pos h, Memory.lookup_write]; simp only [h.1, h.2, true_and]
  · rw [if_neg h, if_neg fun hk => h ⟨hk.1, hk.2.1⟩]

/-- The four cases of the placement as one update: each of the four registers has its own range of offsets. -/
theorem place_eq (d : Byte) (s : State) : place d s =
    { s with
      rxHdrOk := if s.rxCnt = 0 then decide (d = s.cfg.header) else s.rxHdrOk
      rxSum :=
        if 1 ≤ s.rxCnt ∧ s.rxCnt ≤ s.cfg.P then (s.rxSum + d.toNat) % 2 ^ s.cfg.accW else s.rxSum
      rxChk := if s.rxCnt = s.cfg.P + 1 then d else s.rxChk
      rxBuf := placedBuf d s } := by
  rcases place_cases d s with ⟨h0, h⟩ | ⟨h1, hP, h⟩ | ⟨hchk, h⟩ | ⟨hbeyond, h⟩ <;> rw [h]
  · simp [placedBuf, h0, beq_eq_decide]
  · simp [placedBuf, h1, hP, show s.rxCnt ≠ 0 by omega, show s.rxCnt ≠ s.cfg.P + 1 by omega, accumulate]
  · simp [placedBuf, hchk]
  · simp [placedBuf, show s.rxCnt ≠ 0 by omega, show ¬ s.rxCnt ≤ s.cfg.P by omega, show s.rxCnt ≠ s.cfg.P + 1 by omega]

/-! ### The decided result, in the order of R106 -/

section
variable {c : Config} {cnt sum : Nat} {hdrOk : Bool} {chk : Byte}

theorem resultCode_lengthMismatch (hl : cnt ≠ c.P + 2) : resultCode c cnt hdrOk sum chk d = .lengthMismatch := by
  rw [resultCode, if_pos hl]

theorem resultCode_badHeader (hl : cnt = c.P + 2) (hh : hdrOk = false) :
    resultCode c cnt hdrOk sum chk d = .badHeader := by
  simp [resultCode, hl, hh]

theorem resultCode_badFooter (hl : cnt = c.P + 2) (hh : hdrOk = true) (hf : d ≠ c.footer) :
    resultCode c cnt hdrOk sum chk d = .badFooter := by
  simp [resultCode, hl, hh, hf]

theorem resultCode_checksumMismatch (hl : cnt = c.P + 2) (hh : hdrOk = true) (hf : d = c.footer)
    (hk : BitVec.ofNat 8 sum ≠ chk) : resultCode c cnt hdrOk sum chk d = .checksumMismatch := by
  simp [resultCode, hl, hh, hf, lowByte, hk]

theorem resultCode_ok (hl : cnt = c.P + 2) (hh : hdrOk = true) (hf : d = c.footer) (hk : BitVec.ofNat 8 sum = chk) :
    resultCode c cnt hdrOk sum chk d = .ok := by
  simp [resultCode, hl, hh, hf, lowByte, hk]

end

/-! ### The statements -/

/-- Settles O42: the placement of the last byte, then the delivery of the result, one clause per outcome. -/
theorem rxLastDecidesAndDeliversTheResult : Obligations.RxLastDecidesAndDeliversTheResult := by
  unfold Obligations.RxLastDecidesAndDeliversTheResult
  refine ⟨fun c p hrst hvalid hlast => ?_, fun s d r h => ⟨placedBuf d s, _, ?_, lookup_placedBuf d s,
    resultCode_lengthMismatch, resultCode_badHeader, resultCode_badFooter, resultCode_checksumMismatch,
    resultCode_ok⟩⟩
  · simp [decode_rxWord c false p hrst, rxSelected, hvalid, hlast]
  · rw [exec_rxLast d r h, place_eq]; rfl

/-- Settles O41: the placement of the byte, then the saturating count. -/
theorem rxBeatPlacesAndCountsTheByte : Obligations.RxBeatPlacesAndCountsTheByte := by
  unfold Obligations.RxBeatPlacesAndCountsTheByte
  refine ⟨fun c p hrst hvalid hlast => ?_, fun s d r h => ⟨placedBuf d s, ?_, lookup_placedBuf d s⟩⟩
  · simp [decode_rxWord c false p hrst, rxSelected, hvalid, hlast]
  · rw [exec_rxBeat d r h, place_eq]

/-- Settles O43: the step does not look at the code of the pending result. -/
theorem rxTakeClearsTheResult : Obligations.RxTakeClearsTheResult := by
  unfold Obligations.RxTakeClearsTheResult
  refine ⟨fun c p hrst hready => ?_, fun s v l h => ⟨takeResult s, exec_rxTake v l h, rfl, rxOutputs_takeResult s⟩⟩
  simp [decode_rxWord c true p hrst, rxSelected, hready]

end Sys2Proof.Machine
end

section
/-! The PACK and UNPACK operations (43_schema.md R123, R124): what each answers, and the fields of a payload by their
offsets (20_memory.md R41). -/

namespace Sys2Proof.Machine

variable {s : State} {p : List Byte} {x : List FieldValue}

/-! ### What the operations answer -/

theorem exec_pack (hc : s.cfg.wf = true) (hx : s.cfg.schema.admits x = true) :
    exec (.pack x) s = .next { s with ret := .bytes (pack s.cfg x) } :=
  withSchema_next.2 ⟨hc, if_pos hx⟩

theorem exec_unpack (hc : s.cfg.wf = true) (hp : p.length = s.cfg.P) :
    exec (.unpack p) s = .next { s with ret := .values (unpack s.cfg p) } :=
  withSchema_next.2 ⟨hc, if_pos hp⟩

/-! ### Reading at offsets -/

@[simp] theorem fieldOffset_zero (fs : Schema) : fieldOffset fs 0 = 0 := rfl

@[simp] theorem fieldOffset_cons_succ (fld : FieldSpec) (fs : Schema) (i : Nat) :
    fieldOffset (fld :: fs) (i + 1) = fld.ty.width + fieldOffset fs i :=
  rfl

theorem memRead_zero (b : List Byte) (n : Nat) : memRead b 0 n = b.take n := rfl

theorem memRead_drop (b : List Byte) (off k n : Nat) : memRead (b.drop off) k n = memRead b (off + k) n := by
  rw [memRead, memRead, List.drop_drop]

/-- A field is read from the bytes of its own width: what follows them has no effect (R124). -/
theorem fieldRead_take_width (o : ByteOrder) (t : FieldType) (b : List Byte) :
    fieldRead o t (b.take t.width) = fieldRead o t b := by
  have four : wordAt o (b.take 4) = wordAt o b := by simp [wordAt]
  cases t with
  | i32 => exact congrArg FieldValue.i32 four
  | f32 => exact congrArg FieldValue.f32 four
  | bytes n => simp [fieldRead, FieldType.width]

/-! ### The fields of a packed and of an unpacked payload -/

/-- The images of the fields before field `i` fill exactly the offsets below `off_i`. -/
theorem memRead_packFields (o : ByteOrder) {fs : Schema} (hx : fs.admits x = true) {i : Nat} {f : FieldSpec}
    {v : FieldValue} (hf : fs[i]? = some f) (hv : x[i]? = some v) :
    memRead (packFields o x) (fieldOffset fs i) f.ty.width = fieldImage o v := by
  induction fs generalizing x i with
  | nil => simp at hf
  | cons fld fs ih => cases x with
    | nil => simp at hv
    | cons y x =>
      obtain ⟨hy, hrest⟩ : y.conforms fld.ty = true ∧ Schema.admits fs x = true := by simpa [Schema.admits] using hx
      have hwidth : (fieldImage o y).length = fld.ty.width := length_fieldImage o y fld.ty hy
      cases i with
      | zero =>
        obtain ⟨rfl, rfl⟩ : fld = f ∧ y = v := by simpa using And.intro hf hv
        rw [packFields, fieldOffset_zero, memRead_zero, List.take_left' hwidth]
      | succ i =>
        rw [packFields, fieldOffset_cons_succ, ← memRead_drop, List.drop_left' hwidth]
        exact ih hrest hf hv

/-- The reader of field `i` stands at `off_i`, having dropped the widths of the fields before it. -/
theorem getElem?_unpackFields (o : ByteOrder) {fs : Schema} (b : List Byte) {i : Nat} {f : FieldSpec}
    (hf : fs[i]? = some f) :
    (unpackFields o fs b)[i]? = some (fieldRead o f.ty (memRead b (fieldOffset fs i) f.ty.width)) := by
  induction fs generalizing b i with
  | nil => simp at hf
  | cons fld fs ih => cases i with
    | zero =>
      obtain rfl : fld = f := by simpa using hf
      rw [fieldOffset_zero, memRead_zero, fieldRead_take_width]; rfl
    | succ i =>
      rw [fieldOffset_cons_succ, ← memRead_drop]
      exact ih (b.drop fld.ty.width) hf

/-- Byte `k` of a payload is bits `[8k+7 : 8k]` of its port value (R123). -/
theorem getElem?_eq_shiftRight_portValue {k : Nat} (h : k < p.length) :
    p[k]? = some (BitVec.ofNat 8 (portValue p >>> (8 * k))) := by
  rw [← portByte_eq_shiftRight, portByte_portValue p k h, List.getElem?_eq_getElem h]

/-! ### The statements -/

/-- Settles O18: by induction on the schema each image stands at its field's offset; the packed payload has `P` bytes,
each of them a slice of the port value. -/
theorem packWritesEachFieldAtItsOffset : Obligations.PackWritesEachFieldAtItsOffset := by
  unfold Obligations.PackWritesEachFieldAtItsOffset
  intro s x hc hx
  have hlength : (pack s.cfg x).length = s.cfg.P := length_pack hc hx
  exact ⟨_, exec_pack hc hx, hlength, fun _ _ _ => memRead_packFields s.cfg.byteOrder hx,
    fun k hk => getElem?_eq_shiftRight_portValue (hlength ▸ hk)⟩

/-- Settles O19: by induction on the schema each field is read at its offset, from the bytes of its width. -/
theorem unpackReadsEachFieldAtItsOffset : Obligations.UnpackReadsEachFieldAtItsOffset := by
  unfold Obligations.UnpackReadsEachFieldAtItsOffset
  intro s p hc hp
  exact ⟨_, exec_unpack hc hp, length_unpackFields s.cfg.byteOrder s.cfg.schema p,
    fun _ _ => getElem?_unpackFields s.cfg.byteOrder p⟩

end Sys2Proof.Machine
end

section
/-! RESET (70_reset_and_hazards.md R151, R152): its effect as an instruction, at an edge and applied twice, and the
outputs after it. -/

namespace Sys2Proof.Machine

variable {s : State} {e : Event} {rest : List Event}

/-! ### The effect of RESET -/

/-- RESET answers in every state. -/
theorem exec_reset (s : State) : exec .reset s = .next (resetRegisters s) := rfl

theorem resetRegisters_idem (s : State) : resetRegisters (resetRegisters s) = resetRegisters s := rfl

/-- The state the model starts from is a state right after RESET. -/
theorem resetRegisters_resetOf (c : Config) : resetRegisters (State.resetOf c) = State.resetOf c := rfl

/-! ### The event that stands first in the script -/

theorem nextEvent_of_script (h : s.script = e :: rest) : nextEvent s = e := by
  simp [nextEvent, h]

theorem popEvent_of_script (h : s.script = e :: rest) : popEvent s = { s with script := rest } := by
  simp [popEvent, h]

/-! ### The outputs after RESET -/

/-- With `tx_phase` at `T_IDLE` no byte is offered. -/
theorem txOutputs_resetRegisters (s : State) :
    txOutputs (resetRegisters s) = { reqReady := true, valid := false, first := false, last := false, data := 0x00 } :=
  rfl

/-- With `rx_res_valid` 0 the payload port is masked, whatever `rx_buf` holds. -/
theorem rxOutputs_resetRegisters (s : State) :
    rxOutputs (resetRegisters s) = { inReady := true, resValid := false, resCode := .ok, resPayload := 0 } :=
  rfl

/-! ### The statements -/

/-- Settles O1: an edge with `rst = 1` is RESET on the state whose event is consumed (`step_reset`), and
`resetRegisters` is idempotent. -/
theorem resetSetsTheRegistersAndKeepsTheBuffers : Obligations.ResetSetsTheRegistersAndKeepsTheBuffers := by
  unfold Obligations.ResetSetsTheRegistersAndKeepsTheBuffers
  refine ⟨exec_reset, fun s p rest hwf hscript hrst => ?edge, fun s t h => ?again⟩
  case edge =>
    rw [step_reset hwf (nextEvent_of_script hscript) hrst, popEvent_of_script hscript, exec_reset]
  case again =>
    obtain rfl : resetRegisters s = t := Host.Outcome.next.inj ((exec_reset s).symm.trans h)
    rw [exec_reset, resetRegisters_idem]

/-- Settles O2: every row of R152's table is a field of `resetRegisters` or an output equation after it. -/
theorem resetLeavesTheSpecifiedValues : Obligations.ResetLeavesTheSpecifiedValues := by
  unfold Obligations.ResetLeavesTheSpecifiedValues
  refine ⟨fun s => ⟨resetRegisters s, exec_reset s, ?registers⟩, fun c => ⟨?start, ?unwritten⟩⟩
  case registers => simp [txOutputs_resetRegisters, rxOutputs_resetRegisters]
  case start => rw [exec_reset, resetRegisters_resetOf]
  case unwritten => exact fun k => ⟨Memory.lookup_nil k, Memory.lookup_nil k⟩

end Sys2Proof.Machine
end

section
/-! The invariants of 10_state.md R38: each unit's part depends on its own share of the state, RESET establishes it, and
the unit's step keeps it. -/

namespace Sys2Proof.Machine

variable {s t : State} {p : PortIn}

/-! ### Single registers of a share -/

theorem SameTx.txPhase_eq (h : SameTx s t) : s.txPhase = t.txPhase := by
  obtain ⟨-, hphase, -⟩ := h
  exact hphase

theorem SameRx.rxCnt_eq (h : SameRx s t) : s.rxCnt = t.rxCnt := by
  obtain ⟨-, hcnt, -⟩ := h
  exact hcnt

theorem SameRx.rxResValid_eq (h : SameRx s t) : s.rxResValid = t.rxResValid := by
  obtain ⟨-, -, -, -, -, -, hvalid, -⟩ := h
  exact hvalid

/-! ### Each unit's invariant is about its share of the state -/

theorem TxInv.congr (h : SameTx s t) (hs : TxInv s) : TxInv t := by
  obtain ⟨hcfg, hphase, hidx, hsum, hbuf⟩ := h
  exact
    { idx_zero := hphase ▸ hidx ▸ hs.idx_zero
      idx_lt := hphase ▸ hidx ▸ hcfg ▸ hs.idx_lt
      captured := hphase ▸ hbuf ▸ hcfg ▸ hs.captured
      partialSum := hphase ▸ hsum ▸ hidx ▸ hbuf ▸ hcfg ▸ hs.partialSum
      fullSum := hphase ▸ hsum ▸ hbuf ▸ hcfg ▸ hs.fullSum
      sum_zero := hphase ▸ hsum ▸ hs.sum_zero
      sum_lt := hsum ▸ hcfg ▸ hs.sum_lt
      buf_wf := hbuf ▸ hs.buf_wf
      buf_within := hbuf ▸ hcfg ▸ hs.buf_within }

theorem RxInv.congr (h : SameRx s t) (hs : RxInv s) : RxInv t := by
  obtain ⟨hcfg, hcnt, hsum, hhdr, -, hbuf, hvalid, hcode⟩ := h
  exact
    { cnt_le := hcnt ▸ hcfg ▸ hs.cnt_le
      pending_idle := hvalid ▸ hcnt ▸ hsum ▸ hhdr ▸ hs.pending_idle
      code_ok := hvalid ▸ hcode ▸ hs.code_ok
      start := hcnt ▸ hsum ▸ hhdr ▸ hs.start
      received := hcnt ▸ hbuf ▸ hcfg ▸ hs.received
      partialSum := hcnt ▸ hsum ▸ hbuf ▸ hcfg ▸ hs.partialSum
      delivered := hvalid ▸ hcode ▸ hbuf ▸ hcfg ▸ hs.delivered
      sum_lt := hsum ▸ hcfg ▸ hs.sum_lt
      buf_wf := hbuf ▸ hs.buf_wf
      buf_within := hbuf ▸ hcfg ▸ hs.buf_within }

/-! ### RESET establishes the invariants -/

theorem TxInv.resetRegisters (hs : TxInv s) : TxInv (resetRegisters s) := by
  constructor <;> simp [hs.buf_wf, hs.buf_within]

theorem RxInv.resetRegisters (hs : RxInv s) : RxInv (resetRegisters s) := by
  constructor <;> simp [hs.buf_wf, hs.buf_within]

/-! ### The TX unit's step -/

/-- The payload captured at the start of a frame is in the buffer, whole and nothing beyond it. -/
theorem TxInv.accept (payload : Nat) : TxInv
    { s with txBuf := Memory.ofBytes (portBytes s.cfg.P payload), txSum := 0, txIdx := 0, txPhase := .tHdr } := by
  have hwritten := Memory.ofBytes_written (portBytes s.cfg.P payload)
  have hwithin := Memory.ofBytes_within (portBytes s.cfg.P payload)
  rw [length_portBytes] at hwritten hwithin
  constructor <;> simp [hwritten, hwithin, Memory.ofBytes_wf]

/-- With no payload the header leads to the checksum, and the sum 0 is that of no bytes. -/
theorem TxInv.header (hs : TxInv s) (hphase : s.txPhase = .tHdr) :
    TxInv { s with txPhase := if 1 ≤ s.cfg.P then .tPay else .tChk } := by
  have hidx : s.txIdx = 0 := hs.idx_zero (by simp [hphase])
  have hsum : s.txSum = 0 := hs.sum_zero (.inr hphase)
  have hwritten := hs.captured (by simp [hphase])
  by_cases hP : 1 ≤ s.cfg.P
  · rw [if_pos hP]
    constructor <;> simp [hidx, hsum, hwritten, hs.buf_wf, hs.buf_within, byteSum]; omega
  · have hnone : s.txBuf.bytes .tx s.cfg.P = [] := by rw [Nat.eq_zero_of_not_pos hP]; rfl
    rw [if_neg hP]
    constructor <;> simp [hidx, hsum, hwritten, hs.buf_wf, hs.buf_within, hnone]
    rfl

/-- The byte presented joins the sum of the bytes before it. -/
theorem TxInv.accumulated (hs : TxInv s) (hphase : s.txPhase = .tPay) :
    accumulate s.cfg.accW s.txSum (presentedByte s) =
      byteSum (s.txBuf.bytes .tx (s.txIdx + 1)) % 2 ^ s.cfg.accW := by
  rw [hs.partialSum hphase, accumulate_sum, Memory.bytes_succ, byteSum_snoc, presentedByte]

theorem TxInv.payload (hs : TxInv s) (hwf : s.cfg.wf = true) (hphase : s.txPhase = .tPay) : TxInv
    { s with
      txSum := accumulate s.cfg.accW s.txSum (presentedByte s)
      txIdx := if s.txIdx + 1 = s.cfg.P then 0 else s.txIdx + 1
      txPhase := if s.txIdx + 1 = s.cfg.P then .tChk else .tPay } := by
  have hlt := hs.idx_lt hphase
  have hsum := hs.accumulated hphase
  have hsum_lt := accumulate_lt s.cfg.accW s.txSum (presentedByte s)
  have hwritten := hs.captured (by simp [hphase])
  by_cases hlast : s.txIdx + 1 = s.cfg.P
  · have hchk : lowByte (accumulate s.cfg.accW s.txSum (presentedByte s)) =
        checksum (s.txBuf.bytes .tx s.cfg.P) := by
      rw [hsum, hlast, lowByte_byteSum _ _ (Config.wf_accW hwf)]
    simp only [if_pos hlast]
    constructor <;> simp [hchk, hsum_lt, hwritten, hs.buf_wf, hs.buf_within]
  · simp only [if_neg hlast]
    constructor <;> simp [hsum, hwritten, hs.buf_wf, hs.buf_within]
    · omega
    · exact Nat.mod_lt _ (Nat.two_pow_pos _)

theorem TxInv.checksum (hs : TxInv s) (hphase : s.txPhase = .tChk) : TxInv { s with txPhase := .tFtr } := by
  have hidx : s.txIdx = 0 := hs.idx_zero (by simp [hphase])
  have hwritten := hs.captured (by simp [hphase])
  have hfull := hs.fullSum (.inl hphase)
  constructor <;> simp [hidx, hwritten, hfull, hs.sum_lt, hs.buf_wf, hs.buf_within]

theorem TxInv.footer (hs : TxInv s) (hphase : s.txPhase = .tFtr) :
    TxInv { s with txPhase := .tIdle, txSum := 0 } := by
  have hidx : s.txIdx = 0 := hs.idx_zero (by simp [hphase])
  constructor <;> simp [hidx, hs.buf_wf, hs.buf_within]

theorem TxInv.txNext (hs : TxInv s) (hwf : s.cfg.wf = true) : TxInv (txNext p s) := by
  unfold Machine.txNext
  split <;> split
  · exact TxInv.accept p.txReqPayload
  · exact hs
  · exact hs.header ‹_›
  · exact hs
  · exact hs.payload hwf ‹_›
  · exact hs
  · exact hs.checksum ‹_›
  · exact hs
  · exact hs.footer ‹_›
  · exact hs

/-! ### The RX unit's step -/

theorem Memory.written_write_end {m : Memory} {n : Nat} (v : Byte) (h : m.written n) :
    (m.write n v).written (n + 1) := by
  intro k hk
  rw [Memory.lookup_write]
  split
  · simp
  · exact h k (by omega)

/-- The payload bytes of the buffer in progress that `rx_buf` holds (log 21). -/
def payloadSoFar (s : State) : List Byte := s.rxBuf.bytes .rx (min (s.rxCnt - 1) s.cfg.P)

/-- The state after RX_BEAT has accepted a byte. -/
def beatNext (d : Byte) (s : State) : State := { place d s with rxCnt := min (s.rxCnt + 1) (s.cfg.P + 3) }

@[simp] theorem beatNext_cfg (d : Byte) (s : State) : (beatNext d s).cfg = s.cfg := place_cfg
@[simp] theorem beatNext_rxResValid (d : Byte) (s : State) : (beatNext d s).rxResValid = s.rxResValid :=
  place_rxResValid
@[simp] theorem beatNext_rxResCode (d : Byte) (s : State) : (beatNext d s).rxResCode = s.rxResCode := place_rxResCode
@[simp] theorem beatNext_rxCnt (d : Byte) (s : State) : (beatNext d s).rxCnt = min (s.rxCnt + 1) (s.cfg.P + 3) := rfl

theorem beatNext_rxBuf (d : Byte) (s : State) : (beatNext d s).rxBuf =
    if 1 ≤ s.rxCnt ∧ s.rxCnt ≤ s.cfg.P then s.rxBuf.write (s.rxCnt - 1) d else s.rxBuf := by
  simp only [beatNext, place_eq, placedBuf]

theorem beatNext_rxSum (d : Byte) (s : State) : (beatNext d s).rxSum =
    if 1 ≤ s.rxCnt ∧ s.rxCnt ≤ s.cfg.P then accumulate s.cfg.accW s.rxSum d else s.rxSum := by
  simp only [beatNext, place_eq, accumulate]

/-- A byte at one of the offsets 1 to `P` joins the payload bytes received, any other leaves them as they are. -/
theorem payloadSoFar_beatNext (d : Byte) (s : State) : payloadSoFar (beatNext d s) =
    if 1 ≤ s.rxCnt ∧ s.rxCnt ≤ s.cfg.P then payloadSoFar s ++ [d] else payloadSoFar s := by
  rw [payloadSoFar, beatNext_rxBuf, beatNext_rxCnt, beatNext_cfg, payloadSoFar]
  split
  · rw [show min (min (s.rxCnt + 1) (s.cfg.P + 3) - 1) s.cfg.P = s.rxCnt - 1 + 1 by omega, Memory.bytes_write_end,
      show min (s.rxCnt - 1) s.cfg.P = s.rxCnt - 1 by omega]
  · rw [show min (min (s.rxCnt + 1) (s.cfg.P + 3) - 1) s.cfg.P = min (s.rxCnt - 1) s.cfg.P by omega]

/-- At the first byte no payload byte has been received and the sum is 0; afterwards the sum is that of the payload
bytes received. -/
theorem RxInv.sum_eq (hs : RxInv s) : s.rxSum = byteSum (payloadSoFar s) % 2 ^ s.cfg.accW := by
  rcases Nat.eq_zero_or_pos s.rxCnt with h0 | h1
  · rw [(hs.start h0).1, payloadSoFar, h0]; simp [byteSum]
  · exact hs.partialSum h1

theorem RxInv.written (hs : RxInv s) : s.rxBuf.written (min (s.rxCnt - 1) s.cfg.P) := by
  rcases Nat.eq_zero_or_pos s.rxCnt with h0 | h1
  · intro k hk; omega
  · exact hs.received h1

theorem RxInv.sum_beatNext (hs : RxInv s) (d : Byte) :
    (beatNext d s).rxSum = byteSum (payloadSoFar (beatNext d s)) % 2 ^ (beatNext d s).cfg.accW := by
  rw [beatNext_cfg, beatNext_rxSum, payloadSoFar_beatNext]
  split
  · rw [hs.sum_eq, accumulate_sum, byteSum_snoc]
  · exact hs.sum_eq

theorem RxInv.written_beatNext (hs : RxInv s) (d : Byte) :
    (beatNext d s).rxBuf.written (min ((beatNext d s).rxCnt - 1) (beatNext d s).cfg.P) := by
  have hwritten := hs.written
  rw [beatNext_rxCnt, beatNext_cfg, beatNext_rxBuf]
  split
  · rw [show min (s.rxCnt - 1) s.cfg.P = s.rxCnt - 1 by omega] at hwritten
    rw [show min (min (s.rxCnt + 1) (s.cfg.P + 3) - 1) s.cfg.P = s.rxCnt - 1 + 1 by omega]
    exact Memory.written_write_end d hwritten
  · rw [show min (min (s.rxCnt + 1) (s.cfg.P + 3) - 1) s.cfg.P = min (s.rxCnt - 1) s.cfg.P by omega]
    exact hwritten

theorem RxInv.beatNext (hs : RxInv s) (hidle : s.rxResValid = false) (d : Byte) : RxInv (beatNext d s) where
  cnt_le := by simp
  pending_idle := by simp [hidle]
  code_ok := by simpa using hs.code_ok
  start := by simp
  received := fun _ => hs.written_beatNext d
  partialSum := fun _ => hs.sum_beatNext d
  delivered := by simp [hidle]
  sum_lt := by rw [hs.sum_beatNext d]; exact Nat.mod_lt _ (Nat.two_pow_pos _)
  buf_wf := place_rxBuf_wf hs.buf_wf
  buf_within := by rw [beatNext_cfg]; exact place_rxBuf_within hs.buf_within

/-- A success is decided only at offset `P + 2`, with all the checks passed (42_decode.md R106). -/
theorem resultCode_eq_ok_iff {c : Config} {cnt sum : Nat} {hdrOk : Bool} {chk d : Byte} :
    resultCode c cnt hdrOk sum chk d = .ok ↔
      cnt = c.P + 2 ∧ hdrOk = true ∧ d = c.footer ∧ lowByte sum = chk := by
  unfold resultCode
  repeat' split
  all_goals simp_all

theorem RxInv.deliver (hs : RxInv s) (d : Byte) : RxInv
    (deliverResult (resultCode s.cfg s.rxCnt s.rxHdrOk s.rxSum s.rxChk d) (place d s)) where
  cnt_le := by simp
  pending_idle := by simp
  code_ok := by simp
  start := by simp
  received := by simp
  partialSum := by simp
  delivered := fun _ hok => by
    obtain ⟨hcnt, -⟩ := resultCode_eq_ok_iff.1 hok
    have hframing : ¬ (1 ≤ s.rxCnt ∧ s.rxCnt ≤ s.cfg.P) := by omega
    have hwritten := hs.written
    rw [hcnt, show min (s.cfg.P + 2 - 1) s.cfg.P = s.cfg.P by omega] at hwritten
    simpa [place_eq, placedBuf, hframing] using hwritten
  sum_lt := by simp
  buf_wf := place_rxBuf_wf hs.buf_wf
  buf_within := by simpa using place_rxBuf_within hs.buf_within

theorem RxInv.take (hs : RxInv s) (hpending : s.rxResValid = true) : RxInv (takeResult s) := by
  obtain ⟨hcnt, hsum, hhdr⟩ := hs.pending_idle hpending
  constructor <;> simp [hcnt, hsum, hhdr, hs.buf_wf, hs.buf_within]

theorem RxInv.rxNext (hs : RxInv s) : RxInv (rxNext p s) := by
  unfold Machine.rxNext
  split
  · split
    · exact hs.take ‹_›
    · exact hs
  · split
    · split
      · exact hs.deliver p.rxInData
      · exact hs.beatNext (Bool.eq_false_of_not_eq_true ‹_›) p.rxInData
    · exact hs

/-! ### The statements -/

theorem Inv.congr (htx : SameTx s t) (hrx : SameRx s t) (hs : Inv s) : Inv t := ⟨hs.tx.congr htx, hs.rx.congr hrx⟩

/-- An edge with `rst = 0` keeps the invariants: each unit's registers afterwards are those of its own step. -/
theorem Inv.edge (hs : Inv s) (hwf : s.cfg.wf = true) (p : PortIn) : Inv (rxNext p (txNext p (popEvent s))) :=
  ⟨(hs.tx.txNext hwf).congr (sameTx_edge p s), hs.rx.rxNext.congr (sameRx_edge p s)⟩

theorem Inv.step (hs : Inv s) (h : step s = .next t) : Inv t := by
  obtain ⟨hwf, ⟨p, -, -, rfl⟩ | ⟨p, -, -, -, rfl⟩ | ⟨v, -, -, rfl⟩⟩ := step_cases h
  · have hpop : Inv (popEvent s) := hs.congr (SameTx.popEvent s) (SameRx.popEvent s)
    exact ⟨hpop.tx.resetRegisters, hpop.rx.resetRegisters⟩
  · exact hs.edge hwf p
  · exact hs.congr (SameTx.popEvent s) (SameRx.popEvent s)

/-- Settles O49: RESET establishes the invariants, an edge keeps each unit's part, and a call or a datum changes no
register. -/
theorem everyStepKeepsTheInvariants : Obligations.EveryStepKeepsTheInvariants := by
  unfold Obligations.EveryStepKeepsTheInvariants
  exact fun _ _ => Inv.step

/-- Settles O48: every counter and sum is 0 and no buffer holds anything. -/
theorem resetStateMeetsTheInvariants : Obligations.ResetStateMeetsTheInvariants := by
  unfold Obligations.ResetStateMeetsTheInvariants
  intro c
  constructor <;> constructor <;> simp [State.resetOf, Memory.within]

end Sys2Proof.Machine
end

section
/-! The TX unit computes ENCODE_FRAME (41_encode.md R98): the unit's registers stand for an offset in the frame of the
captured payload, the beat on `tx_out` is the frame's beat at that offset, and each transfer moves on by one offset. The
same offset counts the edges that a frame in flight still needs (70_reset_and_hazards.md R163). -/

namespace Sys2Proof.Machine

variable {s t : State} {p : PortIn}

/-! ### The step of the TX unit, by phase and inputs -/

theorem txNext_quiet (hidle : s.txPhase = .tIdle) (hreq : p.txReqValid = false) : txNext p s = s := by
  simp [txNext, hidle, hreq]

theorem txNext_request (hidle : s.txPhase = .tIdle) (hreq : p.txReqValid = true) :
    txNext p s =
      { s with
        txBuf := Memory.ofBytes (portBytes s.cfg.P p.txReqPayload), txSum := 0, txIdx := 0, txPhase := .tHdr } := by
  simp [txNext, hidle, hreq]

theorem txNext_stalled (hbusy : s.txPhase ≠ .tIdle) (hready : p.txOutReady = false) : txNext p s = s := by
  unfold txNext
  split
  · exact absurd ‹_› hbusy
  all_goals simp [hready]

/-- Only TX_ACCEPT writes the buffer. -/
theorem txNext_txBuf_of_busy (hbusy : s.txPhase ≠ .tIdle) : (txNext p s).txBuf = s.txBuf := by
  unfold txNext
  split
  · exact absurd ‹_› hbusy
  all_goals split <;> rfl

/-! ### The frame in flight -/

/-- The payload captured for the frame in flight. -/
def txPayload (s : State) : List Byte := s.txBuf.bytes .tx s.cfg.P

/-- The frame offset of the byte that the TX unit presents; past the last one when it is idle. -/
def txOffset (s : State) : Nat :=
  match s.txPhase with
  | .tIdle => s.cfg.P + 3
  | .tHdr => 0
  | .tPay => s.txIdx + 1
  | .tChk => s.cfg.P + 1
  | .tFtr => s.cfg.P + 2

/-- The beats of the frame in flight that are not transferred yet. -/
def missingBeats (s : State) : List Beat := (frameBeats s.cfg (txPayload s)).drop (txOffset s)

/-- The beat presented on `tx_out`. -/
def beatShown (s : State) : Beat := ⟨(txOutputs s).first, (txOutputs s).last, (txOutputs s).data⟩

theorem length_txPayload (s : State) : (txPayload s).length = s.cfg.P := Memory.length_bytes ..

theorem txPayload_congr (h : SameTx s t) : txPayload s = txPayload t := by
  obtain ⟨hcfg, -, -, -, hbuf⟩ := h
  simp only [txPayload, hcfg, hbuf]

theorem txOffset_congr (h : SameTx s t) : txOffset s = txOffset t := by
  obtain ⟨hcfg, hphase, hidx, -, -⟩ := h
  simp only [txOffset, hcfg, hphase, hidx]

theorem missingBeats_congr (h : SameTx s t) : missingBeats s = missingBeats t := by
  rw [missingBeats, missingBeats, h.1, txPayload_congr h, txOffset_congr h]

theorem txOffset_of_idle (hidle : s.txPhase = .tIdle) : txOffset s = s.cfg.P + 3 := by
  simp only [txOffset, hidle]

theorem txOffset_lt_of_busy (hs : TxInv s) (hbusy : s.txPhase ≠ .tIdle) : txOffset s < s.cfg.P + 3 := by
  cases hphase : s.txPhase with
  | tIdle => exact absurd hphase hbusy
  | tPay => have hidx := hs.idx_lt hphase; simp only [txOffset, hphase]; omega
  | tHdr | tChk | tFtr => simp only [txOffset, hphase]; omega

/-! ### The frame's bytes and beats by offset -/

theorem encodeFrame_payload {c : Config} {q : List Byte} {k : Nat} (hk : k < q.length) :
    (encodeFrame c q)[k + 1]? = q[k]? := by
  simp [encodeFrame, List.getElem?_append_left hk]

theorem length_frameBeats (c : Config) (q : List Byte) : (frameBeats c q).length = q.length + 3 := by
  simp [frameBeats]

theorem getElem?_frameBeats {c : Config} {q : List Byte} {k : Nat} {d : Byte} (hd : (encodeFrame c q)[k]? = some d) :
    (frameBeats c q)[k]? = some ⟨k == 0, k == c.P + 2, d⟩ := by
  simp [frameBeats, hd]

/-- The byte presented is the byte of the frame at the unit's offset. -/
theorem encodeFrame_txOffset (hs : TxInv s) (hbusy : s.txPhase ≠ .tIdle) :
    (encodeFrame s.cfg (txPayload s))[txOffset s]? = some (txOutData s) := by
  obtain ⟨hheader, -, hchecksum, hfooter⟩ := encodeFrame_layout (c := s.cfg) (length_txPayload s)
  cases hphase : s.txPhase with
  | tIdle => exact absurd hphase hbusy
  | tHdr => simpa only [txOffset, txOutData, hphase] using hheader
  | tPay =>
    have hidx : s.txIdx < (txPayload s).length := by rw [length_txPayload]; exact hs.idx_lt hphase
    simp only [txOffset, txOutData, hphase]
    rw [encodeFrame_payload hidx, List.getElem?_eq_getElem hidx]
    exact congrArg some (Memory.getElem_bytes ..)
  | tChk =>
    have hsum : lowByte s.txSum = checksum (txPayload s) := hs.fullSum (.inl hphase)
    simpa only [txOffset, txOutData, hphase, hsum] using hchecksum
  | tFtr => simpa only [txOffset, txOutData, hphase] using hfooter

/-- The markers are those of the frame's beat: `first` at offset 0 only, `last` at offset `P + 2` only (R63). -/
theorem markers_txOffset (hs : TxInv s) (hbusy : s.txPhase ≠ .tIdle) :
    (txOffset s == 0) = (txOutputs s).first ∧ (txOffset s == s.cfg.P + 2) = (txOutputs s).last := by
  cases hphase : s.txPhase with
  | tIdle => exact absurd hphase hbusy
  | tPay => have hidx := hs.idx_lt hphase; simp [txOffset, txOutputs, hphase]; omega
  | tHdr | tChk | tFtr => simp [txOffset, txOutputs, hphase]

theorem frameBeats_txOffset (hs : TxInv s) (hbusy : s.txPhase ≠ .tIdle) :
    (frameBeats s.cfg (txPayload s))[txOffset s]? = some (beatShown s) := by
  obtain ⟨hfirst, hlast⟩ := markers_txOffset hs hbusy
  rw [getElem?_frameBeats (encodeFrame_txOffset hs hbusy), hfirst, hlast]; rfl

/-! ### One step: the beats transferred and still missing -/

/-- A transfer moves the unit on by one offset; after the footer it is idle. -/
theorem txOffset_txNext (hs : TxInv s) (hbusy : s.txPhase ≠ .tIdle) (hready : p.txOutReady = true) :
    txOffset (txNext p s) = txOffset s + 1 := by
  cases hphase : s.txPhase with
  | tIdle => exact absurd hphase hbusy
  | tHdr =>
    have hidx := hs.idx_zero (by simp [hphase])
    by_cases hP : 1 ≤ s.cfg.P
    · simp [txNext, txOffset, hphase, hready, hP, hidx]
    · simp [txNext, txOffset, hphase, hready, hP]; omega
  | tPay =>
    by_cases hlast : s.txIdx + 1 = s.cfg.P <;> simp [txNext, txOffset, hphase, hready, hlast]
  | tChk | tFtr => simp [txNext, txOffset, hphase, hready]

theorem missingBeats_idle (hidle : s.txPhase = .tIdle) : missingBeats s = [] := by
  rw [missingBeats, txOffset_of_idle hidle]
  exact List.drop_eq_nil_of_le (by rw [length_frameBeats, length_txPayload])

theorem missingBeats_transfer (hs : TxInv s) (hbusy : s.txPhase ≠ .tIdle) (hready : p.txOutReady = true) :
    missingBeats s = beatShown s :: missingBeats (txNext p s) := by
  have hpayload : txPayload (txNext p s) = txPayload s := by
    rw [txPayload, txPayload, txNext_txBuf_of_busy hbusy, txNext_cfg]
  rw [missingBeats, missingBeats, hpayload, txNext_cfg, txOffset_txNext hs hbusy hready]
  exact List.drop_eq_getElem?_toList_append.trans (by rw [frameBeats_txOffset hs hbusy]; rfl)

/-- A captured payload leaves its whole frame to transfer. -/
theorem missingBeats_request (hidle : s.txPhase = .tIdle) (hreq : p.txReqValid = true) :
    missingBeats (txNext p s) = frameBeats s.cfg (portBytes s.cfg.P p.txReqPayload) := by
  have hbytes := Memory.bytes_ofBytes .tx (portBytes s.cfg.P p.txReqPayload)
  rw [length_portBytes] at hbytes
  rw [txNext_request hidle hreq, missingBeats, txPayload, hbytes]; rfl

/-! ### What the environment sees of one step -/

theorem txTransfer_of_idle (hidle : s.txPhase = .tIdle) : txTransfer s = [] := by
  unfold txTransfer
  split <;> simp [txOutputs, hidle]

theorem txTransfer_of_busy (hp : livePorts s = some p) (hbusy : s.txPhase ≠ .tIdle) :
    txTransfer s = if p.txOutReady then [beatShown s] else [] := by
  simp [txTransfer, hp, (txOutputs_valid_iff s).2 hbusy, beatShown]

theorem txRequest_of_idle (hp : livePorts s = some p) (hidle : s.txPhase = .tIdle) :
    txRequest s = if p.txReqValid then [portBytes s.cfg.P p.txReqPayload] else [] := by
  simp [txRequest, hp, (txOutputs_reqReady_iff s).2 hidle]

theorem txRequest_of_busy (hbusy : s.txPhase ≠ .tIdle) : txRequest s = [] := by
  unfold txRequest
  split <;> simp [txOutputs, hbusy]

theorem txTransfer_of_no_edge (hp : livePorts s = none) : txTransfer s = [] := by simp [txTransfer, hp]

theorem txRequest_of_no_edge (hp : livePorts s = none) : txRequest s = [] := by simp [txRequest, hp]

/-! ### The simulation -/

/-- What a run from an idle unit keeps: the registers of an idle unit are not looked at. -/
def TxSound (s : State) : Prop := s.txPhase = .tIdle ∨ TxInv s

theorem TxSound.congr (h : SameTx s t) (hs : TxSound s) : TxSound t := hs.imp h.txPhase_eq.symm.trans (TxInv.congr h)

/-- Whatever a state without a frame in flight holds, capturing a payload sets all of it. -/
theorem TxSound.txNext (hs : TxSound s) (hwf : s.cfg.wf = true) : TxSound (txNext p s) := by
  rcases hs with hidle | hinv
  · cases hreq : p.txReqValid with
    | false => exact .inl (by rw [txNext_quiet hidle hreq, hidle])
    | true => exact .inr (by rw [txNext_request hidle hreq]; exact TxInv.accept p.txReqPayload)
  · exact .inr (hinv.txNext hwf)

theorem TxSound.inv_of_busy (hs : TxSound s) (hbusy : s.txPhase ≠ .tIdle) : TxInv s := hs.resolve_left hbusy

/-- One edge: what was missing or is requested is what is transferred or still missing. -/
theorem TxSound.beats_edge (hs : TxSound s) (hp : livePorts s = some p) :
    txTransfer s ++ missingBeats (Machine.txNext p s) =
      missingBeats s ++ (txRequest s).flatMap (frameBeats s.cfg) := by
  by_cases hidle : s.txPhase = .tIdle
  · rw [txTransfer_of_idle hidle, missingBeats_idle hidle, txRequest_of_idle hp hidle]
    cases hreq : p.txReqValid with
    | false => rw [txNext_quiet hidle hreq, missingBeats_idle hidle]; rfl
    | true => rw [missingBeats_request hidle hreq]; simp
  · rw [txTransfer_of_busy hp hidle, txRequest_of_busy hidle, List.flatMap_nil, List.append_nil]
    cases hready : p.txOutReady with
    | false => rw [txNext_stalled hidle hready]; rfl
    | true => rw [missingBeats_transfer (hs.inv_of_busy hidle) hidle hready]; rfl

/-- One step without reset; a call or a datum transfers, requests and changes nothing. -/
theorem TxSound.step (hs : TxSound s) (h : step s = .next t) (hr : (nextEvent s).isReset = false) :
    t.cfg = s.cfg ∧ TxSound t ∧
      txTransfer s ++ missingBeats t = missingBeats s ++ (txRequest s).flatMap (frameBeats s.cfg) := by
  obtain ⟨hwf, ⟨p, he, hrst, -⟩ | ⟨p, he, hrst, -, rfl⟩ | ⟨v, hp, -, rfl⟩⟩ := step_cases h
  · simp [he, Event.isReset, hrst] at hr
  · have hsame := sameTx_edge p s
    refine ⟨by simp, (hs.txNext hwf).congr hsame, ?_⟩
    rw [← missingBeats_congr hsame, hs.beats_edge (livePorts_edge he hrst)]
  · have hsame : SameTx s { popEvent s with ret := v } := SameTx.popEvent s
    refine ⟨rfl, hs.congr hsame, ?_⟩
    rw [← missingBeats_congr hsame, txTransfer_of_no_edge hp, txRequest_of_no_edge hp]
    simp

theorem step_script (h : step s = .next t) : t.script = s.script.tail := by
  obtain ⟨-, ⟨p, -, -, rfl⟩ | ⟨p, -, -, -, rfl⟩ | ⟨v, -, -, rfl⟩⟩ := step_cases h <;> simp

/-- The first event of a run without reset is none, and the run goes on without reset. -/
theorem NoReset.step {n : Nat} (hn : NoReset (n + 1) s) (h : step s = .next t) :
    (nextEvent s).isReset = false ∧ NoReset n t := by
  obtain ⟨hfirst, hrest⟩ := noReset_succ hn
  exact ⟨hfirst, by unfold NoReset; rw [step_script h]; exact hrest⟩

theorem TxSound.run {n : Nat} (hs : TxSound s) (hrun : runSteps n s = some t) (hn : NoReset n s) :
    t.cfg = s.cfg ∧ TxSound t ∧ along txTransfer n s ++ missingBeats t =
      missingBeats s ++ (along txRequest n s).flatMap (frameBeats s.cfg) := by
  induction n generalizing s with
  | zero =>
    obtain rfl : s = t := Option.some.inj hrun
    exact ⟨rfl, hs, by simp [along]⟩
  | succ n ih =>
    obtain ⟨u, hstep, hrun⟩ := runSteps_succ hrun
    obtain ⟨hfirst, hn⟩ := hn.step hstep
    obtain ⟨hcfg, hu, hone⟩ := hs.step hstep hfirst
    obtain ⟨hcfg', ht, hrest⟩ := ih hu hrun hn
    refine ⟨hcfg'.trans hcfg, ht, ?_⟩
    rw [along_next hstep, along_next hstep, List.append_assoc, hrest, ← List.append_assoc, hone,
      List.flatMap_append, List.append_assoc, hcfg]

theorem length_missingBeats (s : State) : (missingBeats s).length = s.cfg.P + 3 - txOffset s := by
  rw [missingBeats, List.length_drop, length_frameBeats, length_txPayload]

/-- Nothing is missing exactly when no frame is in flight. -/
theorem TxSound.idle_iff (hs : TxSound s) : TxIdle s ↔ missingBeats s = [] := by
  refine ⟨missingBeats_idle, fun hnone => by_contra fun hbusy => ?_⟩
  have hlt := txOffset_lt_of_busy (hs.inv_of_busy hbusy) hbusy
  have hlength := length_missingBeats s
  rw [hnone, List.length_nil] at hlength
  omega

/-- Settles O39: from an idle unit nothing is missing at first, each step keeps the account, and what is missing at the
end is the rest of one frame. -/
theorem txUnitComputesEncodeFrame : Obligations.TxUnitComputesEncodeFrame := by
  unfold Obligations.TxUnitComputesEncodeFrame
  intro n s t hidle hrun hn
  obtain ⟨hcfg, ht, hbeats⟩ := TxSound.run (.inl hidle) hrun hn
  refine ⟨missingBeats t, ?_, ?_, ht.idle_iff⟩
  · rw [hbeats, missingBeats_idle hidle, List.nil_append]
  · rw [length_missingBeats, hcfg]; omega

/-! ### How long a frame in flight takes -/

/-- At an edge with `tx_out_ready` and no new request the edges that a frame still needs are one fewer. -/
theorem edgesLeft_txNext (hs : TxInv s) (hready : p.txOutReady = true)
    (hreq : s.txPhase = .tIdle → p.txReqValid = false) :
    s.cfg.P + 3 - txOffset (txNext p s) = s.cfg.P + 3 - txOffset s - 1 := by
  by_cases hidle : s.txPhase = .tIdle
  · rw [txNext_quiet hidle (hreq hidle), txOffset_of_idle hidle]; omega
  · rw [txOffset_txNext hs hidle hready]; omega

end Sys2Proof.Machine
end

section
/-! The RX unit computes DECODE_FRAME (42_decode.md R119, 20_memory.md R50(d)): the unit's registers stand for the bytes
accepted of the buffer in progress, and the result it decides at the last byte is that of the function on the buffer. -/

namespace Sys2Proof.Machine

variable {s t : State} {p : PortIn} {d : Byte} {acc : List Byte}

/-! ### The bytes accepted so far -/

/-- The registers of the RX unit stand for the bytes `acc` of a buffer that has not ended; how `rx_sum` stands for them
is part of `RxInv`. -/
structure RxHolds (acc : List Byte) (s : State) : Prop where
  cnt     : s.rxCnt = min acc.length (s.cfg.P + 3)
  hdrOk   : s.rxHdrOk = decide (acc[0]? = some s.cfg.header)
  payload : payloadSoFar s = (acc.drop 1).take s.cfg.P
  chk     : s.cfg.P + 2 ≤ acc.length → acc[s.cfg.P + 1]? = some s.rxChk

theorem RxHolds.congr (h : SameRx s t) (hs : RxHolds acc s) : RxHolds acc t := by
  obtain ⟨hcfg, hcnt, -, hhdr, hchk, hbuf, -, -⟩ := h
  exact
    { cnt := hcnt ▸ hcfg ▸ hs.cnt
      hdrOk := hhdr ▸ hcfg ▸ hs.hdrOk
      payload := by
        have hsame : payloadSoFar t = payloadSoFar s := by simp only [payloadSoFar, hcfg, hcnt, hbuf]
        exact hsame ▸ hcfg ▸ hs.payload
      chk := hchk ▸ hcfg ▸ hs.chk }

/-- At offset 0 no byte of a buffer has been accepted. -/
theorem RxInv.holds_nil (hs : RxInv s) (hcnt : s.rxCnt = 0) : RxHolds [] s where
  cnt := by simp [hcnt]
  hdrOk := by simp [(hs.start hcnt).2]
  payload := by simp [payloadSoFar, hcnt]
  chk := fun h => by simp at h

theorem RxHolds.payload_beatNext (hs : RxHolds acc s) (d : Byte) :
    payloadSoFar (beatNext d s) = ((acc ++ [d]).drop 1).take s.cfg.P := by
  have hcnt := hs.cnt
  rw [payloadSoFar_beatNext, hs.payload]
  split
  · rw [List.drop_append_of_le_length (by omega), List.take_of_length_le (by simp; omega),
      List.take_of_length_le (by simp; omega)]
  · rcases Nat.eq_zero_or_pos acc.length with h0 | h1
    · simp [List.eq_nil_of_length_eq_zero h0]
    · rw [List.drop_append_of_le_length h1, List.take_append_of_le_length (by simp; omega)]

/-- RX_BEAT appends the byte. -/
theorem RxHolds.beatNext (hs : RxHolds acc s) (d : Byte) : RxHolds (acc ++ [d]) (beatNext d s) where
  cnt := by have hcnt := hs.cnt; simp; omega
  hdrOk := by
    have hcnt := hs.cnt
    rcases acc with _ | ⟨b, acc⟩
    · simp [Machine.beatNext, place_eq, show s.rxCnt = 0 by simpa using hcnt]
    · simp [Machine.beatNext, place_eq, show s.rxCnt ≠ 0 by simp at hcnt; omega, hs.hdrOk]
  payload := by rw [beatNext_cfg]; exact hs.payload_beatNext d
  chk := fun hlen => by
    have hcnt := hs.cnt
    rw [beatNext_cfg, List.length_append, List.length_singleton] at hlen
    rw [beatNext_cfg]
    by_cases hlast : acc.length = s.cfg.P + 1
    · simp [Machine.beatNext, place_eq, hlast, show s.rxCnt = s.cfg.P + 1 by omega]
    · simp [Machine.beatNext, place_eq, show s.rxCnt ≠ s.cfg.P + 1 by omega, ← hs.chk (by omega),
        List.getElem?_append_left (show s.cfg.P + 1 < acc.length by omega)]

/-! ### The result of the buffer that ends with a byte -/

theorem resultOf_of_ok {c : Config} {b q : List Byte} (h : decodeFrame c b = .ok q) :
    resultOf c b = (.ok, portValue q) := by
  rw [resultOf, h]

theorem resultOf_of_err {c : Config} {b : List Byte} {e : FrameError} (h : decodeFrame c b = .err e) :
    resultOf c b = (errorCode e, 0) := by
  rw [resultOf, h]

/-- The code that RX_LAST decides for the byte `d`. -/
def lastCode (s : State) (d : Byte) : ResultCode := resultCode s.cfg s.rxCnt s.rxHdrOk s.rxSum s.rxChk d

/-- Where a buffer of the frame's length, its last byte `d`, has the parts that DECODE_FRAME looks at. -/
theorem RxHolds.layout (hs : RxHolds acc s) (hacc : acc.length = s.cfg.P + 2) (d : Byte) :
    (acc ++ [d])[0]? = acc[0]? ∧ (acc ++ [d])[s.cfg.P + 2]? = some d ∧ (acc ++ [d])[s.cfg.P + 1]? = some s.rxChk ∧
      ((acc ++ [d]).drop 1).take s.cfg.P = payloadSoFar s := by
  refine ⟨List.getElem?_append_left (by omega), by simp [← hacc], ?_, ?_⟩
  · rw [List.getElem?_append_left (by omega), hs.chk hacc.ge]
  · rw [hs.payload, List.drop_append_of_le_length (by omega), List.take_append_of_le_length (by simp; omega)]

/-- The checks of RX_LAST on the registers are those of DECODE_FRAME on the bytes of the buffer, in the same order. -/
theorem RxHolds.resultOf_eq (hs : RxHolds acc s) (hinv : RxInv s) (hwf : s.cfg.wf = true) (d : Byte) :
    resultOf s.cfg (acc ++ [d]) =
      (lastCode s d, if lastCode s d = .ok then portValue (payloadSoFar s) else 0) := by
  have hcnt := hs.cnt
  have hhdr := hs.hdrOk
  unfold lastCode
  by_cases hlength : s.rxCnt ≠ s.cfg.P + 2
  · rw [resultOf_of_err (decodeFrame_lengthMismatch (by simp; omega)), resultCode_lengthMismatch hlength]; rfl
  rw [not_not] at hlength
  have hacc : acc.length = s.cfg.P + 2 := by omega
  have hl : (acc ++ [d]).length = s.cfg.P + 3 := by simp [hacc]
  obtain ⟨hfirst, hlast, hchk, hpayload⟩ := hs.layout hacc d
  by_cases hheader : acc[0]? ≠ some s.cfg.header
  · rw [resultOf_of_err (decodeFrame_badHeader hl (by rwa [hfirst])),
      resultCode_badHeader hlength (by simp [hhdr, hheader])]
    rfl
  rw [not_not] at hheader
  rw [hheader] at hfirst hhdr
  replace hhdr : s.rxHdrOk = true := hhdr.trans (decide_eq_true rfl)
  by_cases hfooter : d ≠ s.cfg.footer
  · rw [resultOf_of_err (decodeFrame_badFooter hl hfirst (by simpa [hlast] using hfooter)),
      resultCode_badFooter hlength hhdr hfooter]
    rfl
  rw [not_not] at hfooter
  replace hlast := hlast.trans (congrArg some hfooter)
  have hsum : checksum (((acc ++ [d]).drop 1).take s.cfg.P) = lowByte s.rxSum := by
    rw [hpayload, hinv.sum_eq, lowByte_byteSum _ _ (Config.wf_accW hwf)]
  by_cases hk : lowByte s.rxSum ≠ s.rxChk
  · rw [resultOf_of_err (decodeFrame_checksumMismatch hl hfirst hlast (by rw [hchk, hsum]; simpa using hk.symm)),
      resultCode_checksumMismatch hlength hhdr hfooter hk]
    rfl
  rw [not_not] at hk
  rw [resultOf_of_ok (decodeFrame_ok hl hfirst hlast (by rw [hchk, hsum, hk])), hpayload,
    resultCode_ok hlength hhdr hfooter hk]
  rfl

/-! ### The result on the ports -/

/-- The result pending on the ports, if one is. -/
def shownResult (s : State) : List (ResultCode × Nat) :=
  if s.rxResValid then [((rxOutputs s).resCode, (rxOutputs s).resPayload)] else []

theorem shownResult_congr (h : SameRx s t) : shownResult s = shownResult t := by
  rw [shownResult, shownResult, h.outputs, h.rxResValid_eq]

theorem shownResult_of_not_pending (h : s.rxResValid = false) : shownResult s = [] := by simp [shownResult, h]

/-- The state after RX_LAST has accepted a byte. -/
def lastNext (d : Byte) (s : State) : State := deliverResult (lastCode s d) (place d s)

/-- With a success decided the payload is complete in the buffer, and the footer is stored nowhere. -/
theorem bytes_lastNext_of_ok (hok : lastCode s d = .ok) : (lastNext d s).rxBuf.bytes .rx s.cfg.P = payloadSoFar s := by
  obtain ⟨hcnt, -⟩ := resultCode_eq_ok_iff.1 hok
  simp [lastNext, place_eq, placedBuf, payloadSoFar, hcnt]

@[simp] theorem lastNext_cfg : (lastNext d s).cfg = s.cfg := by simp [lastNext]

/-- RX_LAST puts the result of the buffer on the ports; with a success the buffer's payload is complete. -/
theorem RxHolds.shownResult_lastNext (hs : RxHolds acc s) (hinv : RxInv s) (hwf : s.cfg.wf = true) (d : Byte) :
    shownResult (lastNext d s) = [resultOf s.cfg (acc ++ [d])] := by
  rw [hs.resultOf_eq hinv hwf d, shownResult]
  by_cases hok : lastCode s d = .ok
  · rw [rxOutputs_resPayload_of_ok _ rfl hok, lastNext_cfg, bytes_lastNext_of_ok hok]
    simp [lastNext, rxOutputs, hok]
  · rw [rxOutputs_resPayload_of_not_ok _ (fun h => hok h.2)]
    simp [lastNext, rxOutputs, hok]

/-! ### The step of the RX unit, by its registers and inputs -/

theorem rxNext_take (hpending : s.rxResValid = true) (hready : p.rxResReady = true) : rxNext p s = takeResult s := by
  simp [rxNext, hpending, hready]

theorem rxNext_held (hpending : s.rxResValid = true) (hready : p.rxResReady = false) : rxNext p s = s := by
  simp [rxNext, hpending, hready]

theorem rxNext_last (hfree : s.rxResValid = false) (hin : p.rxInValid = true) (hlast : p.rxInLast = true) :
    rxNext p s = lastNext p.rxInData s := by
  simp [rxNext, hfree, hin, hlast, lastNext, lastCode]

theorem rxNext_beat (hfree : s.rxResValid = false) (hin : p.rxInValid = true) (hlast : p.rxInLast = false) :
    rxNext p s = beatNext p.rxInData s := by
  simp [rxNext, hfree, hin, hlast, beatNext]

theorem rxNext_quiet (hfree : s.rxResValid = false) (hin : p.rxInValid = false) : rxNext p s = s := by
  simp [rxNext, hfree, hin]

/-! ### What the environment sees of one step -/

theorem rxAccept_of_pending (hpending : s.rxResValid = true) : rxAccept s = [] := by
  unfold rxAccept
  split <;> simp [rxOutputs, hpending]

theorem rxAccept_of_free (hp : livePorts s = some p) (hfree : s.rxResValid = false) :
    rxAccept s = if p.rxInValid then [(p.rxInLast, p.rxInData)] else [] := by
  simp [rxAccept, hp, rxOutputs, hfree]

theorem rxTaken_of_pending (hp : livePorts s = some p) (hpending : s.rxResValid = true) :
    rxTaken s = if p.rxResReady then shownResult s else [] := by
  simp [rxTaken, hp, shownResult, hpending, rxOutputs]

theorem rxTaken_of_free (hfree : s.rxResValid = false) : rxTaken s = [] := by
  unfold rxTaken
  split <;> simp [rxOutputs, hfree]

theorem rxAccept_of_no_edge (hp : livePorts s = none) : rxAccept s = [] := by simp [rxAccept, hp]

theorem rxTaken_of_no_edge (hp : livePorts s = none) : rxTaken s = [] := by simp [rxTaken, hp]

/-! ### The simulation -/

/-- What a run from an idle unit keeps: the bytes `acc` of the buffer in progress, of which there are none while a
result is pending. -/
structure RxTracks (acc : List Byte) (s : State) : Prop where
  inv     : RxInv s
  holds   : RxHolds acc s
  pending : s.rxResValid = true → acc = []

theorem RxTracks.congr (h : SameRx s t) (hs : RxTracks acc s) : RxTracks acc t :=
  ⟨hs.inv.congr h, hs.holds.congr h, fun hvalid => hs.pending (h.rxResValid_eq.trans hvalid)⟩

/-- Between two buffers nothing is tracked but the idle registers. -/
theorem RxInv.tracks_nil (hs : RxInv s) (hcnt : s.rxCnt = 0) : RxTracks [] s :=
  ⟨hs, hs.holds_nil hcnt, fun _ => rfl⟩

/-- The account of a step from `s` to `t` that leads from the buffer in progress `acc` to `acc'`: whatever bytes are
accepted later, the results pending before and those of the buffers completed from then on are the results taken, those
pending afterwards, and those of the buffers completed later. -/
def Accounts (acc acc' : List Byte) (s t : State) : Prop :=
  ∀ later, shownResult s ++ (buffersAfter acc (rxAccept s ++ later)).map (resultOf s.cfg) =
    rxTaken s ++ (shownResult t ++ (buffersAfter acc' later).map (resultOf s.cfg))

theorem Accounts.of_quiet (haccept : rxAccept s = []) (htaken : rxTaken s = [])
    (hshown : shownResult s = shownResult t) :
    Accounts acc acc s t := by
  intro later
  rw [haccept, htaken, hshown]; rfl

/-- One edge of the RX unit. -/
theorem RxTracks.edge (hs : RxTracks acc s) (hwf : s.cfg.wf = true) (hp : livePorts s = some p) :
    ∃ acc', RxTracks acc' (rxNext p s) ∧ Accounts acc acc' s (rxNext p s) := by
  have hinv : RxInv (rxNext p s) := hs.inv.rxNext
  cases hpending : s.rxResValid with
  | true =>
    have haccept := rxAccept_of_pending hpending
    have htaken := rxTaken_of_pending hp hpending
    cases hready : p.rxResReady with
    | true =>
      obtain rfl : acc = [] := hs.pending hpending
      rw [rxNext_take hpending hready] at hinv ⊢
      refine ⟨[], hinv.tracks_nil (hs.inv.pending_idle hpending).1, fun later => ?_⟩
      rw [haccept, htaken, if_pos hready, shownResult_of_not_pending (takeResult_rxResValid s)]; rfl
    | false =>
      rw [rxNext_held hpending hready]
      exact ⟨acc, hs, .of_quiet haccept (by simpa [hready] using htaken) rfl⟩
  | false =>
    have haccept := rxAccept_of_free hp hpending
    have htaken := rxTaken_of_free hpending
    cases hin : p.rxInValid with
    | false =>
      rw [rxNext_quiet hpending hin]
      exact ⟨acc, hs, .of_quiet (by simpa [hin] using haccept) htaken rfl⟩
    | true =>
      rw [if_pos hin] at haccept
      cases hlast : p.rxInLast with
      | true =>
        rw [rxNext_last hpending hin hlast] at hinv ⊢
        refine ⟨[], hinv.tracks_nil rfl, fun later => ?_⟩
        rw [hs.holds.shownResult_lastNext hs.inv hwf, shownResult_of_not_pending hpending, haccept, htaken, hlast]
        simp [buffersAfter]
      | false =>
        rw [rxNext_beat hpending hin hlast] at hinv ⊢
        have hfree : (beatNext p.rxInData s).rxResValid = false := (beatNext_rxResValid ..).trans hpending
        refine ⟨acc ++ [p.rxInData], ⟨hinv, hs.holds.beatNext p.rxInData, by simp [hpending]⟩, fun later => ?_⟩
        rw [shownResult_of_not_pending hpending, shownResult_of_not_pending hfree, haccept, htaken, hlast]
        simp [buffersAfter]

/-- One step without reset; at a call or a datum nothing is accepted, taken or changed. -/
theorem RxTracks.step (hs : RxTracks acc s) (h : step s = .next t) (hr : (nextEvent s).isReset = false) :
    t.cfg = s.cfg ∧ ∃ acc', RxTracks acc' t ∧ Accounts acc acc' s t := by
  obtain ⟨hwf, ⟨p, he, hrst, -⟩ | ⟨p, he, hrst, -, rfl⟩ | ⟨v, hp, -, rfl⟩⟩ := step_cases h
  · simp [he, Event.isReset, hrst] at hr
  · have hsame := sameRx_edge p s
    obtain ⟨acc', htracks, haccounts⟩ := hs.edge hwf (livePorts_edge he hrst)
    exact ⟨by simp, acc', htracks.congr hsame, fun later => by rw [← shownResult_congr hsame]; exact haccounts later⟩
  · have hsame : SameRx s { popEvent s with ret := v } := SameRx.popEvent s
    exact ⟨rfl, acc, hs.congr hsame,
      .of_quiet (rxAccept_of_no_edge hp) (rxTaken_of_no_edge hp) (shownResult_congr hsame)⟩

/-- A run without reset: every buffer that it completes is accounted for, in order. -/
theorem RxTracks.run {n : Nat} (hs : RxTracks acc s) (hrun : runSteps n s = some t) (hn : NoReset n s) :
    shownResult s ++ (buffersAfter acc (along rxAccept n s)).map (resultOf s.cfg) =
      along rxTaken n s ++ shownResult t := by
  induction n generalizing s acc with
  | zero =>
    obtain rfl : s = t := Option.some.inj hrun
    simp [along, buffersAfter]
  | succ n ih =>
    obtain ⟨u, hstep, hrun⟩ := runSteps_succ hrun
    obtain ⟨hfirst, hn⟩ := hn.step hstep
    obtain ⟨hcfg, acc', hu, hone⟩ := hs.step hstep hfirst
    rw [along_next hstep, along_next hstep, hone, List.append_assoc, ← hcfg, ih hu hrun hn]

theorem results_of_idle {n : Nat} (hs : RxInv s) (hidle : RxIdle s) (hrun : runSteps n s = some t) (hn : NoReset n s) :
    (buffersAfter [] (along rxAccept n s)).map (resultOf s.cfg) = along rxTaken n s ++ shownResult t := by
  rw [← (hs.tracks_nil hidle.1).run hrun hn, shownResult_of_not_pending hidle.2, List.nil_append]

/-- Settles O47: an idle unit tracks no byte and shows no result, and every step keeps the account. -/
theorem resultsFollowTheBuffersInOrder : Obligations.ResultsFollowTheBuffersInOrder := by
  unfold Obligations.ResultsFollowTheBuffersInOrder
  exact fun n s t hinv hidle hrun hn => results_of_idle hinv.rx hidle hrun hn

/-! ### One buffer -/

/-- The beats of the bytes `b` at offsets `k` on of a buffer that ends with them: only the final one is marked. -/
theorem buffersAfter_zipIdx {b : List Byte} (hb : b ≠ []) (k : Nat) :
    buffersAfter acc ((b.zipIdx k).map fun x => (x.2 + 1 == k + b.length, x.1)) = [acc ++ b] := by
  induction b generalizing acc k with
  | nil => exact absurd rfl hb
  | cons d b ih =>
    cases b with
    | nil => simp [buffersAfter]
    | cons e b =>
      have hrest := ih (acc := acc ++ [d]) (List.cons_ne_nil e b) (k + 1)
      rw [show k + 1 + (e :: b).length = k + (d :: e :: b).length by simp; omega] at hrest
      rw [List.zipIdx_cons, List.map_cons, show (k + 1 == k + (d :: e :: b).length) = false by simp, buffersAfter,
        hrest, List.append_assoc, List.singleton_append]

theorem buffersAfter_bufferBeats {b : List Byte} (hb : b ≠ []) : buffersAfter acc (bufferBeats b) = [acc ++ b] := by
  simpa [bufferBeats] using buffersAfter_zipIdx (acc := acc) hb 0

/-- Settles O46: the bytes accepted are one buffer, and with no result taken its result is the one pending. -/
theorem rxUnitComputesDecodeFrame : Obligations.RxUnitComputesDecodeFrame := by
  unfold Obligations.RxUnitComputesDecodeFrame
  intro n s t b hinv hidle hrun hn hb haccept htaken
  have hresults := results_of_idle hinv.rx hidle hrun hn
  rw [haccept, htaken, buffersAfter_bufferBeats hb] at hresults
  cases hvalid : t.rxResValid with
  | false => simp [shownResult_of_not_pending hvalid] at hresults
  | true => exact ⟨hvalid, by simpa [shownResult, hvalid] using hresults.symm⟩

end Sys2Proof.Machine
end

section
/-! Runs of edges without reset: the loop-back connection (30_encoding.md R63, 42_decode.md R109), the return to idle
(70_reset_and_hazards.md R163) and over-length buffers (42_decode.md R117). -/

namespace Sys2Proof.Machine

variable {s t : State} {p : PortIn} {rest : List Event}

/-! ### One edge -/

/-- The state after an edge with `rst = 0`. -/
def edgeNext (p : PortIn) (s : State) : State := rxNext p (txNext p (popEvent s))

/-- A legal configuration after reset, where every edge completes. -/
structure Live (s : State) : Prop where
  wf   : s.cfg.wf = true
  seen : s.resetSeen = true

theorem Live.step_edge (hs : Live s) (hscript : s.script = .edge p :: rest) (hrst : p.rst = false) :
    step s = .next (edgeNext p s) :=
  step_live hs.wf hs.seen (nextEvent_of_script hscript) hrst

@[simp] theorem edgeNext_cfg (p : PortIn) (s : State) : (edgeNext p s).cfg = s.cfg := by simp [edgeNext]

theorem edgeNext_script (hscript : s.script = .edge p :: rest) : (edgeNext p s).script = rest := by
  simp [edgeNext, hscript]

theorem Live.edgeNext (hs : Live s) (p : PortIn) : Live (edgeNext p s) :=
  ⟨by simp [hs.wf], by simp [Machine.edgeNext, hs.seen]⟩

theorem Inv.edgeNext (hs : Inv s) (hlive : Live s) (p : PortIn) : Inv (edgeNext p s) := hs.edge hlive.wf p

/-- The TX unit's registers after an edge are those of its own step. -/
theorem sameTx_edgeNext (p : PortIn) (s : State) : SameTx (txNext p s) (edgeNext p s) := sameTx_edge p s

/-- The RX unit's registers after an edge are those of its own step. -/
theorem sameRx_edgeNext (p : PortIn) (s : State) : SameRx (rxNext p s) (edgeNext p s) := sameRx_edge p s

/-- The TX unit's next registers depend on its own registers and inputs only. -/
theorem SameTx.step (h : SameTx s t) : SameTx (Machine.txNext p s) (Machine.txNext p t) := by
  obtain ⟨hcfg, hphase, hidx, hsum, hbuf⟩ := h
  unfold Machine.txNext presentedByte
  simp only [hcfg, hphase, hidx, hsum, hbuf]
  repeat' split
  all_goals simp [SameTx, hcfg, hphase, hidx, hsum, hbuf]

/-! ### The return to idle -/

/-- A unit that needs no more edges is idle. -/
theorem idle_of_txOffset (hs : TxInv s) (hdone : s.cfg.P + 3 - txOffset s = 0) : TxIdle s :=
  by_contra fun hbusy => by have hlt := txOffset_lt_of_busy hs hbusy; omega

/-- While the transport is ready each edge brings the frame in flight one offset further. -/
theorem idle_within {ins : List PortIn} (hs : Inv s) (hlive : Live s) (hscript : s.script = ins.map .edge ++ rest)
    (hins : ∀ p ∈ ins, p.rst = false ∧ p.txOutReady = true) (hlen : s.cfg.P + 3 - txOffset s ≤ ins.length) :
    ∃ k t, k ≤ ins.length ∧ runSteps k s = some t ∧ TxIdle t := by
  induction ins generalizing s with
  | nil => exact ⟨0, s, Nat.le_refl 0, rfl, idle_of_txOffset hs.tx (Nat.le_zero.1 hlen)⟩
  | cons p ins ih =>
    by_cases hidle : TxIdle s
    · exact ⟨0, s, Nat.zero_le _, rfl, hidle⟩
    · obtain ⟨⟨hrst, hready⟩, hins⟩ := List.forall_mem_cons.1 hins
      have hoffset : txOffset (edgeNext p s) = txOffset s + 1 :=
        (txOffset_congr (sameTx_edge p s)).symm.trans (txOffset_txNext hs.tx hidle hready)
      obtain ⟨k, t, hk, hrun, ht⟩ := ih (hs.edgeNext hlive p) (hlive.edgeNext p) (edgeNext_script hscript) hins
        (by rw [hoffset, edgeNext_cfg]; rw [List.length_cons] at hlen; omega)
      exact ⟨k + 1, t, Nat.succ_le_succ hk, (runSteps_next (hlive.step_edge hscript hrst)).trans hrun, ht⟩

/-- Settles O40: a frame in flight needs no more edges than a frame has bytes. -/
theorem frameCompletesWhileTheTransportIsReady : Obligations.FrameCompletesWhileTheTransportIsReady := by
  unfold Obligations.FrameCompletesWhileTheTransportIsReady
  intro s ins rest hinv hwf hseen hscript hlength hins
  rw [← hlength]
  exact idle_within hinv ⟨hwf, hseen⟩ hscript hins (by omega)

/-- An edge at which both peers are ready and nothing is offered. -/
def drainPorts : PortIn := { PortIn.quiet with txOutReady := true, rxResReady := true }

/-- An edge at which both peers are ready and a last byte is offered: it ends a buffer in progress. -/
def flushPorts : PortIn := { drainPorts with rxInValid := true, rxInLast := true }

/-- Whatever the RX unit was doing, no byte of a buffer is left after the flush: a pending result is taken, or a result
is delivered. -/
theorem rxCnt_flush (hs : RxInv s) : (rxNext flushPorts s).rxCnt = 0 := by
  cases hpending : s.rxResValid with
  | true => rw [rxNext_take hpending rfl, takeResult_rxCnt]; exact (hs.pending_idle hpending).1
  | false => rw [rxNext_last hpending rfl rfl]; rfl

theorem rxIdle_drain (hcnt : s.rxCnt = 0) : RxIdle (rxNext drainPorts s) := by
  cases hpending : s.rxResValid with
  | true => rw [rxNext_take hpending rfl]; exact ⟨hcnt, rfl⟩
  | false => rw [rxNext_quiet hpending rfl]; exact ⟨hcnt, hpending⟩

theorem RxIdle.congr (h : SameRx s t) (hs : RxIdle s) : RxIdle t := by
  obtain ⟨-, hcnt, -, -, -, -, hvalid, -⟩ := h
  exact ⟨hcnt ▸ hs.1, hvalid ▸ hs.2⟩

/-- A drain brings the frame in flight one offset further. -/
theorem edgesLeft_drain (hs : TxInv s) :
    s.cfg.P + 3 - txOffset (edgeNext drainPorts s) = s.cfg.P + 3 - txOffset s - 1 := by
  rw [← txOffset_congr (sameTx_edgeNext drainPorts s)]
  exact edgesLeft_txNext hs rfl fun _ => rfl

/-- After a drain the RX unit is idle; after as many as the frame in flight needs the TX unit is too. -/
theorem idle_after_drains {n : Nat} (hs : Inv s) (hlive : Live s) (hcnt : s.rxCnt = 0) (hrx : n = 0 → RxIdle s)
    (hscript : s.script = (List.replicate n drainPorts).map .edge) (hlen : s.cfg.P + 3 - txOffset s ≤ n) :
    ∃ t, runSteps n s = some t ∧ TxIdle t ∧ RxIdle t := by
  induction n generalizing s with
  | zero => exact ⟨s, rfl, idle_of_txOffset hs.tx (Nat.le_zero.1 hlen), hrx rfl⟩
  | succ n ih =>
    have hidle : RxIdle (edgeNext drainPorts s) := (rxIdle_drain hcnt).congr (sameRx_edgeNext drainPorts s)
    have hleft := edgesLeft_drain hs.tx
    obtain ⟨t, hrun, ht⟩ := ih (hs.edgeNext hlive drainPorts) (hlive.edgeNext drainPorts) hidle.1 (fun _ => hidle)
      (edgeNext_script hscript) (by rw [edgeNext_cfg]; omega)
    exact ⟨t, (runSteps_next (hlive.step_edge hscript rfl)).trans hrun, ht⟩

/-- The flush and the drains by which the return to idle is made. -/
def returnPorts (n : Nat) : List PortIn := flushPorts :: List.replicate (n + 3) drainPorts

/-- Settles O54: a flush ends what the RX unit is doing, and the drains after it end what the TX unit is doing. -/
theorem everyStateCanReturnToIdleWithoutReset : Obligations.EveryStateCanReturnToIdleWithoutReset := by
  unfold Obligations.EveryStateCanReturnToIdleWithoutReset
  intro s hinv hwf hseen
  have hlive : Live { s with script := (returnPorts s.cfg.P).map .edge } := ⟨hwf, hseen⟩
  have hstart : Inv { s with script := (returnPorts s.cfg.P).map .edge } :=
    hinv.congr (SameTx.refl s) (SameRx.refl s)
  have hcnt := (sameRx_edgeNext flushPorts _).rxCnt_eq.symm.trans (rxCnt_flush hstart.rx)
  obtain ⟨t, hrun, ht⟩ := idle_after_drains (n := s.cfg.P + 3) (hstart.edgeNext hlive flushPorts)
    (hlive.edgeNext flushPorts) hcnt (fun h => by omega) (edgeNext_script rfl)
    (by rw [edgeNext_cfg]; exact Nat.sub_le _ _)
  refine ⟨returnPorts s.cfg.P, t, fun p hp => ?_, ?_, ht⟩
  · rcases List.mem_cons.1 hp with rfl | hp
    · rfl
    · rw [List.eq_of_mem_replicate hp]; rfl
  · rw [returnPorts, List.length_cons, List.length_replicate]
    exact (runSteps_next (hlive.step_edge rfl rfl)).trans hrun

/-! ### Over-length buffers -/

/-- The inputs of an edge that offers one byte. -/
def bytePorts (d : Byte) (last : Bool) : PortIn :=
  { PortIn.quiet with rxInValid := true, rxInData := d, rxInLast := last }

theorem place_overlong {d : Byte} (hlong : s.cfg.P + 2 ≤ s.rxCnt) : place d s = s := by
  rcases place_cases d s with ⟨h, -⟩ | ⟨-, h, -⟩ | ⟨h, -⟩ | ⟨-, h⟩
  · omega
  · omega
  · omega
  · exact h

/-- From offset `P + 2` on a byte that is not the last is counted and stored nowhere. -/
theorem beatNext_overlong {d : Byte} (hlong : s.cfg.P + 2 ≤ s.rxCnt) :
    beatNext d s = { s with rxCnt := s.cfg.P + 3 } := by
  rw [beatNext, place_overlong hlong, show min (s.rxCnt + 1) (s.cfg.P + 3) = s.cfg.P + 3 by omega]

/-- A last byte past offset `P + 2` is stored nowhere, and the buffer is too long. -/
theorem lastNext_overlong {d : Byte} (hlong : s.rxCnt = s.cfg.P + 3) :
    lastNext d s = deliverResult .lengthMismatch s := by
  rw [lastNext, lastCode, resultCode_lengthMismatch (by omega), place_overlong (by omega)]

/-- However many bytes follow, the buffer and the checksum byte stay as they are until the mismatch is reported. -/
theorem overlong_run {ds : List Byte} {d : Byte} (hlive : Live s) (hfree : s.rxResValid = false)
    (hlong : s.cfg.P + 2 ≤ s.rxCnt) (hmore : ds = [] → s.rxCnt = s.cfg.P + 3)
    (hscript : s.script = (ds.map fun x => .edge (bytePorts x false)) ++ .edge (bytePorts d true) :: rest) :
    ∃ t, runSteps (ds.length + 1) s = some t ∧ t.rxBuf = s.rxBuf ∧ t.rxChk = s.rxChk ∧ t.rxResValid = true ∧
      t.rxResCode = .lengthMismatch := by
  induction ds generalizing s with
  | nil =>
    refine ⟨_, runSteps_next (hlive.step_edge hscript rfl), ?_⟩
    obtain ⟨-, -, -, -, hchk, hbuf, hvalid, hcode⟩ := sameRx_edgeNext (bytePorts d true) s
    rw [← hchk, ← hbuf, ← hvalid, ← hcode, rxNext_last hfree rfl rfl, lastNext_overlong (hmore rfl)]
    exact ⟨rfl, rfl, rfl, rfl⟩
  | cons x ds ih =>
    obtain ⟨hcfg, hcnt, -, -, hchk, hbuf, hvalid, -⟩ := sameRx_edgeNext (bytePorts x false) s
    rw [rxNext_beat hfree rfl rfl, beatNext_overlong hlong] at hcfg hcnt hchk hbuf hvalid
    have hcnt' : (edgeNext (bytePorts x false) s).rxCnt = (edgeNext (bytePorts x false) s).cfg.P + 3 := by
      rw [← hcnt, ← hcfg]
    obtain ⟨t, hrun, hbuf', hchk', ht⟩ := ih (hlive.edgeNext (bytePorts x false)) (hvalid.symm.trans hfree)
      (by omega) (fun _ => hcnt') (edgeNext_script hscript)
    exact ⟨t, (runSteps_next (hlive.step_edge hscript rfl)).trans hrun, hbuf'.trans hbuf.symm,
      hchk'.trans hchk.symm, ht⟩

/-- Settles O45: past offset `P + 2` the RX unit only counts, and the last byte finds the count too high. -/
theorem overlongBufferIsDiscardedAndReported : Obligations.OverlongBufferIsDiscardedAndReported := by
  unfold Obligations.OverlongBufferIsDiscardedAndReported
  intro s ds d rest hwf hseen hfree hlong _ hds hscript
  obtain ⟨t, hrun, hbuf, hchk, hvalid, hcode⟩ :=
    overlong_run ⟨hwf, hseen⟩ hfree hlong (fun h => absurd h hds) hscript
  refine ⟨t, hrun, hbuf, hchk, hvalid, hcode, rxOutputs_resPayload_of_not_ok t ?_⟩
  simp [hcode]

/-! ### The loop-back connection -/

/-- With the loop-back wiring, the RX unit has accepted exactly the bytes of the frame of `q` that the TX unit has
transferred, and the frame is not complete. -/
structure LoopsAt (q : List Byte) (s : State) : Prop where
  inv     : Inv s
  live    : Live s
  busy    : s.txPhase ≠ .tIdle
  payload : txPayload s = q
  free    : s.rxResValid = false
  holds   : RxHolds ((encodeFrame s.cfg q).take (txOffset s)) s

/-- The state before a loop-back edge, with the edge's inputs in the script. -/
def wired (reqValid : Bool) (reqPayload : Nat) (s : State) : State :=
  { s with script := [.edge (loopback reqValid reqPayload false s)] }

/-- The state after a loop-back edge at which no result is taken. -/
def loopNext (reqValid : Bool) (reqPayload : Nat) (s : State) : State :=
  edgeNext (loopback reqValid reqPayload false s) (wired reqValid reqPayload s)

section
variable {v : Bool} {x : Nat}

theorem sameTx_wired : SameTx s (wired v x s) := SameTx.refl s

theorem sameRx_wired : SameRx s (wired v x s) := SameRx.refl s

theorem Live.wired (hs : Live s) : Live (wired v x s) := ⟨hs.wf, hs.seen⟩

theorem Live.loopNext (hs : Live s) : Live (loopNext v x s) := (hs.wired (v := v) (x := x)).edgeNext _

theorem Live.loopEdge (hs : Live s) : loopEdge v x false s = .next (Machine.loopNext v x s) :=
  (hs.wired (v := v) (x := x)).step_edge rfl rfl

theorem Inv.loopNext (hs : Inv s) (hlive : Live s) : Inv (loopNext v x s) :=
  Inv.edgeNext (hs.congr sameTx_wired sameRx_wired) hlive.wired _

@[simp] theorem loopNext_cfg : (loopNext v x s).cfg = s.cfg := edgeNext_cfg _ _

theorem sameTx_loopNext : SameTx (txNext (loopback v x false s) s) (loopNext v x s) :=
  (SameTx.step sameTx_wired).trans
    (sameTx_edgeNext (loopback v x false s) (wired v x s))

theorem sameRx_loopNext : SameRx (rxNext (loopback v x false s) s) (loopNext v x s) :=
  (SameRx.step sameRx_wired).trans
    (sameRx_edgeNext (loopback v x false s) (wired v x s))

end

section
variable {q : List Byte}

/-- The byte looped back is the next one of the frame. -/
theorem LoopsAt.take_succ (hs : LoopsAt q s) : (encodeFrame s.cfg q).take (txOffset s + 1) =
    (encodeFrame s.cfg q).take (txOffset s) ++ [txOutData s] := by
  rw [List.take_add_one, ← hs.payload, encodeFrame_txOffset hs.inv.tx hs.busy]; rfl

/-- The marker looped back is on the frame's last byte. -/
theorem LoopsAt.last_iff (hs : LoopsAt q s) : (txOutputs s).last = true ↔ txOffset s = s.cfg.P + 2 := by
  rw [← (markers_txOffset hs.inv.tx hs.busy).2, beq_iff_eq]

/-- The inputs that the loop-back gives the units while a frame is under way. -/
theorem LoopsAt.ports (hs : LoopsAt q s) :
    (loopback false 0 false s).txOutReady = true ∧ (loopback false 0 false s).rxInValid = true :=
  ⟨(rxOutputs_inReady_iff s).2 hs.free, (txOutputs_valid_iff s).2 hs.busy⟩

theorem LoopsAt.txOffset_loopNext (hs : LoopsAt q s) : txOffset (loopNext false 0 s) = txOffset s + 1 := by
  rw [← txOffset_congr sameTx_loopNext, txOffset_txNext hs.inv.tx hs.busy hs.ports.1]

theorem LoopsAt.txPayload_loopNext (hs : LoopsAt q s) : txPayload (loopNext false 0 s) = q := by
  rw [← txPayload_congr sameTx_loopNext, ← hs.payload, txPayload, txNext_txBuf_of_busy hs.busy, txNext_cfg, txPayload]

/-- Before the footer a loop-back edge carries one more byte of the frame over. -/
theorem LoopsAt.carry (hs : LoopsAt q s) (hmore : txOffset s < s.cfg.P + 2) : LoopsAt q (loopNext false 0 s) := by
  have hoffset := hs.txOffset_loopNext
  have hlast : (txOutputs s).last = false := Bool.eq_false_iff.2 fun h => by have hend := hs.last_iff.1 h; omega
  have hnext : rxNext (loopback false 0 false s) s = beatNext (txOutData s) s := rxNext_beat hs.free hs.ports.2 hlast
  have hrx : SameRx (beatNext (txOutData s) s) (loopNext false 0 s) := hnext ▸ sameRx_loopNext
  exact
    { inv := hs.inv.loopNext hs.live
      live := hs.live.loopNext
      busy := fun hidle => by have hend := txOffset_of_idle hidle; rw [loopNext_cfg] at hend; omega
      payload := hs.txPayload_loopNext
      free := hrx.rxResValid_eq.symm.trans ((beatNext_rxResValid ..).trans hs.free)
      holds := by rw [hoffset, loopNext_cfg, hs.take_succ]; exact (hs.holds.beatNext (txOutData s)).congr hrx }

/-- The footer is looped back as the last byte: the TX unit is idle and the result is that of the whole frame. -/
theorem LoopsAt.finish (hs : LoopsAt q s) (hend : txOffset s = s.cfg.P + 2) :
    TxIdle (loopNext false 0 s) ∧ (loopNext false 0 s).rxResValid = true ∧
      shownResult (loopNext false 0 s) = [(.ok, portValue q)] := by
  have hlength : q.length = s.cfg.P := by rw [← hs.payload, length_txPayload]
  have hnext : rxNext (loopback false 0 false s) s = lastNext (txOutData s) s :=
    rxNext_last hs.free hs.ports.2 (hs.last_iff.2 hend)
  have hrx : SameRx (lastNext (txOutData s) s) (loopNext false 0 s) := hnext ▸ sameRx_loopNext
  have hwhole : (encodeFrame s.cfg q).take (txOffset s) ++ [txOutData s] = encodeFrame s.cfg q := by
    rw [← hs.take_succ, hend, List.take_of_length_le (by rw [length_encodeFrame, hlength])]
  refine ⟨idle_of_txOffset (hs.inv.loopNext hs.live).tx ?_, hrx.rxResValid_eq.symm, ?_⟩
  · rw [hs.txOffset_loopNext, hend, loopNext_cfg]; exact Nat.sub_self _
  · rw [← shownResult_congr hrx, hs.holds.shownResult_lastNext hs.inv.rx hs.live.wf, hwhole,
      resultOf_of_ok (decodeFrame_encodeFrame hlength)]

/-- The rest of the frame is looped back, one byte an edge. -/
theorem LoopsAt.run {n : Nat} (hs : LoopsAt q s) (hn : txOffset s + n = s.cfg.P + 2) :
    ∃ u, loopIdle (n + 1) s = some u ∧ TxIdle u ∧ u.rxResValid = true ∧ shownResult u = [(.ok, portValue q)] := by
  induction n generalizing s with
  | zero => exact ⟨_, by rw [loopIdle, hs.live.loopEdge]; rfl, hs.finish hn⟩
  | succ n ih =>
    obtain ⟨u, hrun, hu⟩ := ih (hs.carry (by omega)) (by rw [hs.txOffset_loopNext, loopNext_cfg]; omega)
    exact ⟨u, by rw [loopIdle, hs.live.loopEdge]; exact hrun, hu⟩

end

/-- The edge at which the payload is taken: nothing is looped back yet. -/
theorem loopsAt_request (payload : Nat) (hs : Inv s) (hlive : Live s) (htx : TxIdle s) (hrx : RxIdle s) :
    LoopsAt (portBytes s.cfg.P payload) (loopNext true payload s) ∧ txOffset (loopNext true payload s) = 0 := by
  have hinv : Inv (loopNext true payload s) := hs.loopNext hlive
  have htx' : SameTx (txNext (loopback true payload false s) s) (loopNext true payload s) := sameTx_loopNext
  have hrx' : SameRx (rxNext (loopback true payload false s) s) (loopNext true payload s) := sameRx_loopNext
  have hquiet : (loopback true payload false s).rxInValid = false := by simp [loopback, txOutputs, htx]
  rw [txNext_request htx rfl] at htx'
  rw [rxNext_quiet hrx.2 hquiet] at hrx'
  have hidle := RxIdle.congr hrx' hrx
  have hoffset : txOffset (loopNext true payload s) = 0 := (txOffset_congr htx').symm
  have hbytes := Memory.bytes_ofBytes .tx (portBytes s.cfg.P payload)
  rw [length_portBytes] at hbytes
  exact ⟨
    { inv := hinv
      live := hlive.loopNext
      busy := by rw [← htx'.txPhase_eq]; simp
      payload := (txPayload_congr htx').symm.trans hbytes
      free := hidle.2
      holds := by rw [hoffset]; exact hinv.rx.holds_nil hidle.1 }, hoffset⟩

/-- Settles O53: the edge of the request captures the payload, each of the `P + 3` edges after it carries one byte of
its frame over, and the result of a built frame is its payload. -/
theorem loopBackDeliversThePayload : Obligations.LoopBackDeliversThePayload := by
  unfold Obligations.LoopBackDeliversThePayload
  intro s payload hinv hwf hseen htx hrx hpayload
  have hlive : Live s := ⟨hwf, hseen⟩
  obtain ⟨hloop, hoffset⟩ := loopsAt_request payload hinv hlive htx hrx
  obtain ⟨u, hrun, hidle, hvalid, hshown⟩ := hloop.run (n := s.cfg.P + 2) (by rw [hoffset, loopNext_cfg, Nat.zero_add])
  refine ⟨_, u, hlive.loopEdge, hrun, hidle, ?_⟩
  rw [portValue_portBytes, Nat.mod_eq_of_lt hpayload] at hshown
  simp only [shownResult, hvalid, if_true, List.cons.injEq, and_true, Prod.mk.injEq] at hshown
  obtain ⟨hcode, hresPayload⟩ := hshown
  calc rxOutputs u = ⟨!u.rxResValid, u.rxResValid, (rxOutputs u).resCode, (rxOutputs u).resPayload⟩ := rfl
    _ = _ := by rw [hvalid, hcode, hresPayload]; rfl

end Sys2Proof.Machine
end

section
/-! Words and instructions (30_encoding.md sections 1 to 5): the word of an instruction decodes to it, and a word that
decodes is the word of what it decodes to. Selectors are words of ports (`txWord`, `rxWord`) and so decode by what the
ports select; in the other direction each row of a table gives back the bits that its mask leaves free. -/

namespace Sys2Proof.Machine

variable {c : Config}

/-! ### The word of a unit's instruction is a word of ports that select it -/

/-- The inputs of an edge at the TX unit. -/
def txPorts (v : Bool) (payload : Nat) (r : Bool) : PortIn :=
  { PortIn.quiet with txReqValid := v, txReqPayload := payload, txOutReady := r }

/-- The inputs of an edge at the RX unit. -/
def rxPorts (v l r : Bool) (d : Byte) : PortIn :=
  { PortIn.quiet with rxInValid := v, rxInLast := l, rxResReady := r, rxInData := d }

theorem encode_txSelect {i : Instr} (hwf : i.wf c = true) (hf : i.format = some .txSelect) :
    ∃ n ph p, p.rst = false ∧ txSelected n ph p = i ∧ encode c i = some (txWord n ph p) := by
  cases i with
  | txAccept payload r =>
    have hlt : payload < 256 ^ c.P := by simpa [Instr.wf] using hwf
    exact ⟨c.P, .tIdle, txPorts true payload r, rfl, by simp [txSelected, txPorts, Nat.mod_eq_of_lt hlt],
      by cases r <;> rfl⟩
  | txHdr v => exact ⟨0, .tHdr, txPorts v 0 true, rfl, rfl, by cases v <;> rfl⟩
  | txPay v => exact ⟨0, .tPay, txPorts v 0 true, rfl, rfl, by cases v <;> rfl⟩
  | txChk v => exact ⟨0, .tChk, txPorts v 0 true, rfl, rfl, by cases v <;> rfl⟩
  | txFtr v => exact ⟨0, .tFtr, txPorts v 0 true, rfl, rfl, by cases v <;> rfl⟩
  | txHold ph v r =>
    refine ⟨0, ph, txPorts v 0 r, rfl, ?_, by simp [encode, txWord, txPorts, PortIn.quiet, leBytes]⟩
    cases ph <;> simp_all [Instr.wf, txSelected, txPorts]
  | _ => cases hf

/-- RX_TAKE and RX_HOLD do not read `rx_in_data`, and their words leave it out. -/
theorem encode_rxSelect {i : Instr} (hwf : i.wf c = true) (hf : i.format = some .rxSelect) :
    ∃ rv p, p.rst = false ∧ rxSelected rv p = i ∧
      (encode c i = some (rxWord rv p) ∨ p.rxInData = 0 ∧ encode c i = some ((rxWord rv p).take 1)) := by
  cases i with
  | rxBeat d r => exact ⟨false, rxPorts true false r d, rfl, rfl, .inl (by cases r <;> rfl)⟩
  | rxLast d r => exact ⟨false, rxPorts true true r d, rfl, rfl, .inl (by cases r <;> rfl)⟩
  | rxTake v l => exact ⟨true, rxPorts v l true 0, rfl, rfl, .inr ⟨rfl, by cases v <;> cases l <;> rfl⟩⟩
  | rxHold rv v l r =>
    refine ⟨rv, rxPorts v l r 0, rfl, ?_, .inr ⟨rfl, by simp [encode, rxWord, rxPorts, PortIn.quiet]⟩⟩
    cases rv <;> simp_all [Instr.wf, rxSelected, rxPorts]
  | _ => cases hf

theorem decode_rxWord_short (rv : Bool) (p : PortIn) (hrst : p.rst = false) (hdata : p.rxInData = 0) :
    decode c .rxSelect ((rxWord rv p).take 1) = .ok (rxSelected rv p) := by
  have hlong := decode_rxWord c rv p hrst
  rw [rxWord, hdata] at hlong
  exact hlong

/-! ### Frame words -/

/-- The parts of a frame are found in its word, and only there (R57). -/
theorem splitFrame_eq_ok_iff {n : Nat} {header footer k : Byte} {w p : List Byte} :
    splitFrame n header footer w = .ok (p, k) ↔ p.length = n ∧ w = frameWord header footer p k := by
  constructor
  · intro h
    unfold splitFrame at h
    split at h
    · cases h
    rename_i hlen
    split at h
    · cases h
    rename_i hheader
    split at h
    · cases h
    rename_i hfooter
    cases h
    rw [not_not] at hlen hheader hfooter
    refine ⟨by simp; omega, ?_⟩
    cases w with
    | nil => simp at hlen
    | cons b rest =>
      have hrest : rest.length = n + 2 := by simpa using hlen
      have hdrop : rest.drop n = [rest[n], rest[n + 1]] := by
        rw [List.drop_eq_getElem_cons (by omega), List.drop_eq_getElem_cons (by omega),
          List.drop_eq_nil_of_le (by omega)]
      have hsplit : rest = rest.take n ++ [rest[n], rest[n + 1]] := by rw [← hdrop, List.take_append_drop]
      have hfooter' : rest[n + 1] = footer := by simpa [hrest] using hfooter
      have hheader' : b = header := by simpa using hheader
      rw [hfooter'] at hsplit
      simpa [frameWord, hheader', hrest] using hsplit
  · rintro ⟨rfl, rfl⟩
    simp [splitFrame, frameWord]

/-- A payload of `n` bytes is kept by the number of `8 * n` bits that a FRAME_Pn row makes of it. -/
theorem beBytes_ofNat_beValue {n m : Nat} {p : List Byte} (hp : p.length = n) (hm : 2 ^ m = 256 ^ n) :
    beBytes n (BitVec.ofNat m (beValue p)).toNat = p := by
  have hlt := beValue_lt p
  rw [hp, ← hm] at hlt
  rw [BitVec.toNat_ofNat, Nat.mod_eq_of_lt hlt, ← hp, beBytes_beValue]

theorem ofNat_beValue_beBytes {n m : Nat} (x : BitVec m) (hm : 2 ^ m = 256 ^ n) :
    BitVec.ofNat m (beValue (beBytes n x.toNat)) = x := by
  apply BitVec.eq_of_toNat_eq
  rw [beValue_beBytes, ← hm, BitVec.toNat_ofNat, Nat.mod_mod, Nat.mod_eq_of_lt x.isLt]

theorem splitFrame_frameWord {n : Nat} {p : List Byte} (hp : p.length = n) (header footer k : Byte) :
    splitFrame n header footer (frameWord header footer p k) = .ok (p, k) :=
  splitFrame_eq_ok_iff.2 ⟨hp, rfl⟩

/-! ### Decoding the word of an instruction -/

/-- The word of an instruction in a data format, or of RESET, decodes to it. -/
theorem decode_encode_data {i : Instr} {f : Format} {w : List Byte} (hwf : i.wf c = true) (hf : i.format = some f)
    (hdata : f.isData = true ∨ f = .rst) (hw : encode c i = some w) : decode c f w = .ok i := by
  cases i with
  | checksum | pack | unpack | encodeFrame | encode | decodeFrame | decode => cases hf
  | txAccept | txHdr | txPay | txChk | txFtr | txHold | rxBeat | rxLast | rxTake | rxHold =>
    cases hf; simp [Format.isData] at hdata
  | frame p k =>
    cases hf; cases hw
    simp [Sys2Proof.decode, splitFrame_frameWord (of_decide_eq_true hwf), Except.map]
  | frameP0 k => cases hf; cases hw; simp [Sys2Proof.decode, splitFrame_frameWord, Except.map]
  | frameP2 p k | frameP12 p k | frameP16 p k =>
    cases hf; cases hw
    simp [Sys2Proof.decode, splitFrame_frameWord, Except.map, ofNat_beValue_beBytes]
  | fieldBytesN a =>
    cases hf; cases hw
    exact if_neg (by rintro rfl; simp [Instr.wf] at hwf)
  | beatTxOut first last d => cases hf; cases hw; cases first <;> cases last <;> rfl
  | beatRxIn last d => cases hf; cases hw; cases last <;> rfl
  | _ => cases hf; cases hw; rfl

/-- Settles O6: a unit's word is a word of ports and decodes to what they select; the words of the other formats are
taken apart as they are put together. -/
theorem decodeOfEncodeIsTheInstruction : Obligations.DecodeOfEncodeIsTheInstruction := by
  unfold Obligations.DecodeOfEncodeIsTheInstruction
  intro c i f w hwf hf hw
  by_cases htx : f = .txSelect
  · subst htx
    obtain ⟨n, ph, p, hrst, rfl, hword⟩ := encode_txSelect hwf hf
    obtain rfl : txWord n ph p = w := Option.some.inj (hword.symm.trans hw)
    exact decode_txWord c n ph p hrst
  by_cases hrx : f = .rxSelect
  · subst hrx
    obtain ⟨rv, p, hrst, rfl, hword | ⟨hdata, hword⟩⟩ := encode_rxSelect hwf hf
    · obtain rfl : rxWord rv p = w := Option.some.inj (hword.symm.trans hw)
      exact decode_rxWord c rv p hrst
    · obtain rfl : (rxWord rv p).take 1 = w := Option.some.inj (hword.symm.trans hw)
      exact decode_rxWord_short rv p hrst hdata
  · exact decode_encode_data hwf hf (by cases f <;> simp_all [Format.isData]) hw

end Sys2Proof.Machine
end

section
/-! Words that decode (30_encoding.md sections 1 to 5): each row of a table gives back the bits that its mask leaves
free, so a word that decodes is the word of what it decodes to; which selectors are in a row; the words of the table. -/

namespace Sys2Proof

open Machine

variable {c : Config} {sel data : Nat} {i : Instr}

/-! ### What a table's row keeps of a selector -/

theorem Row.accepts_iff {r : Row} : r.accepts sel = true ↔ sel < 2 ^ r.width ∧ sel &&& r.mask = r.pattern := by
  simp [Row.accepts]

/-- The word of what the row makes of a selector starts with the selector. -/
def Row.KeepsSelector (c : Config) (r : Row) : Prop :=
  ∀ sel data, r.accepts sel = true → ∃ w, encode c (r.build sel data) = some w ∧ w.head? = some (codeByte sel)

/-- It is so when the instruction's word is made of the row's pattern and of the bits that its mask leaves free. -/
theorem Row.keepsSelector {r : Row} (free : Nat → Nat)
    (hfree : ∀ sel < 2 ^ r.width, (sel &&& r.mask) + free sel = sel)
    (hword : ∀ sel data, ∃ w, encode c (r.build sel data) = some w ∧ w.head? = some (codeByte (r.pattern + free sel))) :
    r.KeepsSelector c := by
  intro sel data h
  obtain ⟨hlt, hmask⟩ := Row.accepts_iff.1 h
  obtain ⟨w, hw, hhead⟩ := hword sel data
  have hsel := hfree sel hlt
  rw [hmask] at hsel
  exact ⟨w, hw, by rw [hhead, hsel]⟩

/-- The value of bit `k` of a selector. -/
def bitAt (k sel : Nat) : Nat := 2 ^ k * (sel.testBit k).toNat

theorem masked_tx0 : ∀ sel < 64, (sel &&& 0x3E) + bitAt 0 sel = sel := by decide

theorem masked_tx1 : ∀ sel < 64, (sel &&& 0x3D) + bitAt 1 sel = sel := by decide

theorem masked_rx0 : ∀ sel < 32, (sel &&& 0x1E) + bitAt 0 sel = sel := by decide

theorem masked_rx21 : ∀ sel < 32, (sel &&& 0x19) + (bitAt 2 sel + bitAt 1 sel) = sel := by decide

theorem masked_rx10 : ∀ sel < 32, (sel &&& 0x1C) + (bitAt 1 sel + bitAt 0 sel) = sel := by decide

theorem txRows_keepSelector : ∀ r ∈ txRows, Row.KeepsSelector c r := by
  simp only [txRows, txStepRows, txHoldRows, List.cons_append, List.nil_append, List.forall_mem_cons]
  refine ⟨?accept, ?hdr, ?pay, ?chk, ?ftr, ?holdIdle, ?holdHdr, ?holdPay, ?holdChk, ?holdFtr, by simp⟩
  case accept | holdIdle => exact Row.keepsSelector _ masked_tx0 fun _ _ => ⟨_, rfl, by simp [bitAt, TxPhase.code]⟩
  all_goals exact Row.keepsSelector _ masked_tx1 fun _ _ => ⟨_, rfl, by simp [bitAt, TxPhase.code]⟩

theorem rxRows_keepSelector : ∀ r ∈ rxRows, Row.KeepsSelector c r := by
  simp only [rxRows, rxStepRows, rxHoldRows, List.cons_append, List.nil_append, List.forall_mem_cons]
  refine ⟨?beat, ?last, ?take, ?holdFree, ?holdPending, by simp⟩
  case beat | last => exact Row.keepsSelector _ masked_rx0 fun _ _ => ⟨_, rfl, by simp [bitAt]⟩
  case take | holdPending => exact Row.keepsSelector _ masked_rx21 fun _ _ => ⟨_, rfl, by simp [bitAt, Nat.add_assoc]⟩
  case holdFree => exact Row.keepsSelector _ masked_rx10 fun _ _ => ⟨_, rfl, by simp [bitAt]⟩

/-! ### What a table's row keeps of a code -/

/-- A code is in the row of its number, whose instruction is always well formed and has the code as its word. -/
def Row.KeepsCode (c : Config) (r : Row) : Prop :=
  ∀ sel data, r.accepts sel = true →
    (r.build sel data).wf c = true ∧ encode c (r.build sel data) = some [codeByte sel]

theorem masked_code : ∀ sel < 8, sel &&& 0x7 = sel := by decide

theorem masked_rst : ∀ sel < 2, sel &&& 0x1 = sel := by decide

theorem Row.keepsCode {r : Row} (hmask : ∀ sel < 2 ^ r.width, sel &&& r.mask = sel)
    (hword : ∀ sel data, (r.build sel data).wf c = true ∧ encode c (r.build sel data) = some [codeByte r.pattern]) :
    r.KeepsCode c := by
  intro sel data h
  obtain ⟨hlt, hpattern⟩ := Row.accepts_iff.1 h
  rw [hmask sel hlt] at hpattern
  exact hpattern ▸ hword sel data

theorem rstRows_keepCode : ∀ r ∈ rstRows, Row.KeepsCode c r := by
  simp only [rstRows, List.forall_mem_cons]
  exact ⟨Row.keepsCode masked_rst fun _ _ => ⟨rfl, rfl⟩, by simp⟩

theorem resultRows_keepCode : ∀ r ∈ resultRows, Row.KeepsCode c r := by
  simp only [resultRows, List.forall_mem_cons]
  refine ⟨?_, ?_, ?_, ?_, ?_, ?_, ?_, ?_, by simp⟩ <;> exact Row.keepsCode masked_code fun _ _ => ⟨rfl, rfl⟩

theorem phaseRows_keepCode : ∀ r ∈ phaseRows, Row.KeepsCode c r := by
  simp only [phaseRows, List.forall_mem_cons]
  refine ⟨?_, ?_, ?_, ?_, ?_, ?_, ?_, ?_, by simp⟩ <;> exact Row.keepsCode masked_code fun _ _ => ⟨rfl, rfl⟩

/-! ### The word of what a word decodes to, format by format -/

theorem lookupRow_eq_some {rows : List Row} (h : lookupRow rows sel data = some i) :
    ∃ r ∈ rows, r.accepts sel = true ∧ r.build sel data = i := by
  obtain ⟨r, hr, hi⟩ := Option.map_eq_some_iff.1 h
  exact ⟨r, List.mem_of_find?_eq_some hr, by simpa using List.find?_some hr, hi⟩

@[simp] theorem codeByte_toNat (b : Byte) : codeByte b.toNat = b := by simp [codeByte]

theorem encode_of_decodeSelector {rows : List Row} {w : List Byte} (hrows : ∀ r ∈ rows, Row.KeepsSelector c r)
    (h : decodeSelector rows w = .ok i) : ∃ w', encode c i = some w' ∧ w'.head? = w.head? := by
  cases w with
  | nil => cases h
  | cons b operand =>
    simp only [decodeSelector] at h
    split at h
    · rename_i hrow
      cases h
      obtain ⟨r, hr, haccepts, rfl⟩ := lookupRow_eq_some hrow
      obtain ⟨w', hw', hhead⟩ := hrows r hr _ (leValue operand) haccepts
      exact ⟨w', hw', by rw [hhead, codeByte_toNat]; rfl⟩
    · cases h

theorem encode_of_decodeCode {rows : List Row} {w : List Byte} (hrows : ∀ r ∈ rows, Row.KeepsCode c r)
    (h : decodeCode rows w = .ok i) : i.wf c = true ∧ encode c i = some w := by
  unfold decodeCode at h
  split at h
  · cases h
  · split at h
    · rename_i hrow
      cases h
      obtain ⟨r, hr, haccepts, rfl⟩ := lookupRow_eq_some hrow
      simpa using hrows r hr _ 0 haccepts
    · cases h
  · cases h

theorem encode_of_decodeField {build : Byte → Byte → Byte → Byte → Instr} {w : List Byte}
    (hbuild : ∀ b0 b1 b2 b3, (build b0 b1 b2 b3).wf c = true ∧ encode c (build b0 b1 b2 b3) = some [b0, b1, b2, b3])
    (h : decodeField build w = .ok i) : i.wf c = true ∧ encode c i = some w := by
  unfold decodeField at h
  split at h
  · cases h; exact hbuild _ _ _ _
  · cases h

theorem encode_of_splitFrame {n : Nat} {header footer : Byte} {build : List Byte × Byte → Instr} {w : List Byte}
    (hbuild : ∀ p k, p.length = n →
      (build (p, k)).wf c = true ∧ encode c (build (p, k)) = some (frameWord header footer p k))
    (h : (splitFrame n header footer w).map build = .ok i) : i.wf c = true ∧ encode c i = some w := by
  cases hsplit : splitFrame n header footer w with
  | error e => rw [hsplit] at h; cases h
  | ok x =>
    rw [hsplit] at h
    cases h
    obtain ⟨hp, rfl⟩ := splitFrame_eq_ok_iff.1 hsplit
    exact hbuild x.1 x.2 hp

theorem beatByte_twoBits : ∀ m : Byte, m.toNat < 4 → codeByte (2 * (m.getLsbD 1).toNat + (m.getLsbD 0).toNat) = m := by
  decide

theorem beatByte_oneBit : ∀ m : Byte, m.toNat < 2 → codeByte (m.getLsbD 0).toNat = m := by decide

/-- In a data format, and for RESET, a word is read whole. -/
theorem encode_of_decode_data {f : Format} {w : List Byte} (hdata : f.isData = true ∨ f = .rst)
    (h : decode c f w = .ok i) : i.wf c = true ∧ encode c i = some w := by
  cases f with
  | txSelect | rxSelect => simp [Format.isData] at hdata
  | rst => exact encode_of_decodeCode rstRows_keepCode h
  | resultCode => exact encode_of_decodeCode resultRows_keepCode h
  | txPhase => exact encode_of_decodeCode phaseRows_keepCode h
  | frame => exact encode_of_splitFrame (fun p k hp => ⟨by exact decide_eq_true hp, rfl⟩) h
  | frameP0 =>
    exact encode_of_splitFrame (fun p k hp => ⟨rfl, by rw [List.eq_nil_of_length_eq_zero hp]; rfl⟩) h
  | frameP2 | frameP12 | frameP16 =>
    exact encode_of_splitFrame (fun p k hp => ⟨rfl, by rw [encode, beBytes_ofNat_beValue hp (by norm_num)]⟩) h
  | fieldI32Little | fieldI32Big | fieldF32Little | fieldF32Big =>
    exact encode_of_decodeField (fun _ _ _ _ => ⟨rfl, rfl⟩) h
  | fieldBytes =>
    by_cases hw : w = []
    · simp [decode, hw] at h
    · obtain rfl : Instr.fieldBytesN w = i := by simpa [decode, hw] using h
      exact ⟨by simpa [Instr.wf, Nat.one_le_iff_ne_zero] using hw, rfl⟩
  | beatTxOut =>
    simp only [decode] at h
    split at h
    · split at h
      · rename_i hbits
        cases h
        exact ⟨rfl, by rw [encode, beatByte_twoBits _ hbits]⟩
      · cases h
    · cases h
  | beatRxIn =>
    simp only [decode] at h
    split at h
    · split at h
      · rename_i hbits
        cases h
        exact ⟨rfl, by rw [encode, beatByte_oneBit _ hbits]⟩
      · cases h
    · cases h

/-- Settles O7: a selector is kept by the rows of its table, and the words of the other formats are read whole. -/
theorem encodeOfDecodeIsTheWord : Obligations.EncodeOfDecodeIsTheWord := by
  unfold Obligations.EncodeOfDecodeIsTheWord
  intro c f w i h
  refine ⟨decode_format h, ?_⟩
  by_cases hdata : f.isData = true ∨ f = .rst
  · obtain ⟨hwf, hw⟩ := encode_of_decode_data hdata h
    exact ⟨fun _ => hwf, w, hw, rfl, fun _ => rfl⟩
  · obtain ⟨hnot, hrst⟩ := not_or.1 hdata
    obtain ⟨w', hw', hhead⟩ : ∃ w', encode c i = some w' ∧ w'.head? = w.head? := by
      cases f with
      | txSelect => exact encode_of_decodeSelector txRows_keepSelector h
      | rxSelect => exact encode_of_decodeSelector rxRows_keepSelector h
      | rst => exact absurd rfl hrst
      | _ => exact absurd rfl hnot
    exact ⟨fun h => absurd h hnot, w', hw', hhead, fun h => absurd h hdata⟩

/-! ### Selectors at an edge and words of the table -/

/-- Settles O10: the two words are the ones that `decode_txWord` and `decode_rxWord` decode. -/
theorem edgeSelectsTheStepOfTheTable : Obligations.EdgeSelectsTheStepOfTheTable := by
  unfold Obligations.EdgeSelectsTheStepOfTheTable
  exact fun c n phase resValid p hrst => ⟨decode_txWord c n phase p hrst, decode_rxWord c resValid p hrst⟩

/-- Settles O8, selector by selector. -/
theorem selectorRowsPartitionTheSelectors : Obligations.SelectorRowsPartitionTheSelectors := by
  unfold Obligations.SelectorRowsPartitionTheSelectors
  exact ⟨by decide, by decide⟩

/-- Settles O9, word by word. -/
theorem tableWordsDecodeToTheirRows : Obligations.TableWordsDecodeToTheirRows := by
  unfold Obligations.TableWordsDecodeToTheirRows
  decide

end Sys2Proof
end

section
/-! What an event is answered with (30_encoding.md R67, 10_state.md R13, R15): a call or a datum gives its value back or
is refused as the parameters alone decide; a unit's instruction acts on its unit's share alone or is not selected. -/

namespace Sys2Proof.Machine

variable {c : Config} {s t u : State} {i : Instr} {rest : List Event}

/-! ### Calls and data -/

/-- A meaning that the parameters alone decide: it gives a value back, or it is refused. -/
def RepliesFor (c : Config) (m : State → Host.Outcome State Fault Refusal) : Prop :=
  (∃ v, ∀ s, s.cfg = c → m s = giveBack s v) ∨ ∃ r, ∀ s, s.cfg = c → m s = .refused r

theorem RepliesFor.congr {m n : State → Host.Outcome State Fault Refusal} (hm : RepliesFor c m)
    (h : ∀ s, s.cfg = c → n s = m s) : RepliesFor c n :=
  hm.imp (fun ⟨v, hv⟩ => ⟨v, fun s hs => (h s hs).trans (hv s hs)⟩)
    fun ⟨r, hr⟩ => ⟨r, fun s hs => (h s hs).trans (hr s hs)⟩

theorem RepliesFor.value (f : Config → Ret) : RepliesFor c fun s => giveBack s (f s.cfg) :=
  .inl ⟨f c, fun s hs => congrArg (fun c => giveBack s (f c)) hs⟩

theorem RepliesFor.refusal (r : Refusal) : RepliesFor c fun _ => .refused r := .inr ⟨r, fun _ _ => rfl⟩

theorem RepliesFor.ite (p : Config → Prop) [DecidablePred p] {m n : State → Host.Outcome State Fault Refusal}
    (hm : RepliesFor c m) (hn : RepliesFor c n) : RepliesFor c fun s => if p s.cfg then m s else n s := by
  by_cases h : p c
  · exact hm.congr fun s hs => if_pos (hs.symm ▸ h)
  · exact hn.congr fun s hs => if_neg (hs.symm ▸ h)

theorem RepliesFor.withSchema {m : State → Host.Outcome State Fault Refusal} (hm : RepliesFor c m) :
    RepliesFor c fun s => withSchema s (m s) :=
  .ite (fun c => c.wf = true) hm (.refusal .illFormedConfig)

/-- No call and no datum reads a register. -/
theorem exec_repliesFor (hi : i.level ≠ .port) : RepliesFor c (exec i) := by
  cases i with
  | txAccept | txHdr | txPay | txChk | txFtr | txHold | rxBeat | rxLast | rxTake | rxHold | reset => exact absurd rfl hi
  | pack x =>
    exact .withSchema (.ite (fun c => c.schema.admits x = true) (.value fun c => .bytes (pack c x)) (.refusal _))
  | unpack p =>
    exact .withSchema (.ite (fun c => p.length = c.P) (.value fun c => .values (unpack c p)) (.refusal _))
  | encodeFrame p => exact .ite (fun c => p.length = c.P) (.value fun c => .bytes (encodeFrame c p)) (.refusal _)
  | encode x =>
    exact .withSchema
      (.ite (fun c => c.schema.admits x = true) (.value fun c => .bytes (encodePayload c x)) (.refusal _))
  | decodeFrame b => exact .value fun c => .frameResult (decodeFrame c b)
  | decode b => exact .withSchema (.value fun c => .payloadResult (decodePayload c b))
  | frame p k =>
    exact .ite (fun c => p.length = c.P) (.value fun c => .frame (frameView c.header c.footer p k)) (.refusal _)
  | fieldBytesN a =>
    exact .ite (fun _ => 1 ≤ a.length) (.value fun c => .field (fieldRead c.byteOrder (.bytes a.length) a))
      (.refusal _)
  | resReserved5 | resReserved6 | resReserved7 | phaseReserved5 | phaseReserved6 | phaseReserved7 => exact .refusal _
  | _ => exact .value fun _ => _

/-- In another state with the same parameters a call or a datum gives the same value back. -/
theorem exec_next_congr (hi : i.level ≠ .port) (hcfg : u.cfg = s.cfg) (h : exec i s = .next t) :
    exec i u = .next { u with ret := t.ret } := by
  rcases exec_repliesFor (c := s.cfg) hi with ⟨v, hv⟩ | ⟨r, hr⟩
  · rw [hv s rfl] at h
    obtain rfl := giveBack_next.1 h
    rw [hv u hcfg]; rfl
  · rw [hr s rfl] at h; cases h

/-- Settles O30: the value is decided by the parameters, which giving it back does not change. -/
theorem callsAndDataTouchNoRegister : Obligations.CallsAndDataTouchNoRegister := by
  unfold Obligations.CallsAndDataTouchNoRegister
  intro i s t hi h
  obtain ⟨v, rfl⟩ := exec_ret hi h
  exact ⟨rfl, exec_next_congr (s := s) (u := { s with ret := v }) hi rfl h⟩

/-! ### The instructions of the two units -/

/-- `u` with the TX unit's registers of `t`. -/
def withTx (t u : State) : State :=
  { u with txPhase := t.txPhase, txIdx := t.txIdx, txSum := t.txSum, txBuf := t.txBuf }

/-- `u` with the RX unit's registers of `t`. -/
def withRx (t u : State) : State :=
  { u with
    rxCnt := t.rxCnt, rxSum := t.rxSum, rxHdrOk := t.rxHdrOk, rxChk := t.rxChk, rxBuf := t.rxBuf
    rxResValid := t.rxResValid, rxResCode := t.rxResCode }

theorem withTx_withRx (a b s : State) : withTx a (withRx b s) = withRx b (withTx a s) := rfl

/-- A TX instruction looks at the TX unit's share alone, and changes nothing but it. -/
theorem exec_tx (hi : i.format = some .txSelect) (s : State) :
    ∃ b t, ∀ u, SameTx s u → exec i u = whenSelected b (withTx t u) := by
  cases i with
  | txAccept payload r =>
    refine ⟨s.txPhase == .tIdle,
      { s with txBuf := Memory.ofBytes (portBytes s.cfg.P payload), txSum := 0, txIdx := 0, txPhase := .tHdr },
      fun u ⟨hcfg, hphase, hidx, hsum, hbuf⟩ => ?_⟩
    simp only [exec, execTxAccept, withTx, hcfg, hphase]
  | txHdr v =>
    refine ⟨s.txPhase == .tHdr, { s with txPhase := if 1 ≤ s.cfg.P then .tPay else .tChk },
      fun u ⟨hcfg, hphase, hidx, hsum, hbuf⟩ => ?_⟩
    simp only [exec, execTxHdr, withTx, hcfg, hphase, hidx, hsum, hbuf]
  | txPay v =>
    refine ⟨s.txPhase == .tPay,
      { s with
        txSum := accumulate s.cfg.accW s.txSum (presentedByte s)
        txIdx := if s.txIdx + 1 = s.cfg.P then 0 else s.txIdx + 1
        txPhase := if s.txIdx + 1 = s.cfg.P then .tChk else .tPay },
      fun u ⟨hcfg, hphase, hidx, hsum, hbuf⟩ => ?_⟩
    simp only [exec, execTxPay, withTx, presentedByte, hcfg, hphase, hidx, hsum, hbuf]
  | txChk v =>
    refine ⟨s.txPhase == .tChk, { s with txPhase := .tFtr }, fun u ⟨hcfg, hphase, hidx, hsum, hbuf⟩ => ?_⟩
    simp only [exec, execTxChk, withTx, hphase, hidx, hsum, hbuf]
  | txFtr v =>
    refine ⟨s.txPhase == .tFtr, { s with txPhase := .tIdle, txSum := 0 },
      fun u ⟨hcfg, hphase, hidx, hsum, hbuf⟩ => ?_⟩
    simp only [exec, execTxFtr, withTx, hphase, hidx, hbuf]
  | txHold ph v r =>
    refine ⟨s.txPhase == ph && (if ph = .tIdle then !v else !r), s, fun u ⟨hcfg, hphase, hidx, hsum, hbuf⟩ => ?_⟩
    simp only [exec, execTxHold, withTx, hphase, hidx, hsum, hbuf]
  | _ => cases hi

/-- An RX instruction looks at the RX unit's share alone, and changes nothing but it. -/
theorem exec_rx (hi : i.format = some .rxSelect) (s : State) :
    ∃ b t, ∀ u, SameRx s u → exec i u = whenSelected b (withRx t u) := by
  cases i with
  | rxBeat d r =>
    refine ⟨!s.rxResValid, beatNext d s, fun u ⟨hcfg, hcnt, hsum, hhdr, hchk, hbuf, hvalid, hcode⟩ => ?_⟩
    simp only [exec, execRxBeat, withRx, beatNext, place_eq, placedBuf, hcfg, hcnt, hsum, hhdr, hchk, hbuf, hvalid,
      hcode]
  | rxLast d r =>
    refine ⟨!s.rxResValid, lastNext d s, fun u ⟨hcfg, hcnt, hsum, hhdr, hchk, hbuf, hvalid, hcode⟩ => ?_⟩
    simp only [exec, execRxLast, withRx, lastNext, lastCode, deliverResult, place_eq, placedBuf, hcfg, hcnt, hsum, hhdr,
      hchk, hbuf, hvalid]
  | rxTake v l =>
    refine ⟨s.rxResValid, takeResult s, fun u ⟨hcfg, hcnt, hsum, hhdr, hchk, hbuf, hvalid, hcode⟩ => ?_⟩
    simp only [exec, execRxTake, withRx, takeResult, hcnt, hsum, hhdr, hchk, hbuf, hvalid]
  | rxHold rv v l r =>
    refine ⟨s.rxResValid == rv && (if rv then !r else !v), s,
      fun u ⟨hcfg, hcnt, hsum, hhdr, hchk, hbuf, hvalid, hcode⟩ => ?_⟩
    simp only [exec, execRxHold, withRx, hcnt, hsum, hhdr, hchk, hbuf, hvalid, hcode]
  | _ => cases hi

/-- Settles O51: each instruction leaves the other's share as it is, so it finds there what it would find first. -/
theorem unitStepsCommute : Obligations.UnitStepsCommute := by
  unfold Obligations.UnitStepsCommute
  intro s i j hi hj
  obtain ⟨b, a, htx⟩ := exec_tx hi s
  obtain ⟨b', a', hrx⟩ := exec_rx hj s
  rw [htx s (SameTx.refl s), hrx s (SameRx.refl s)]
  have hij : exec i (withRx a' s) = whenSelected b (withTx a (withRx a' s)) := htx _ (SameTx.refl s)
  have hji : exec j (withTx a s) = whenSelected b' (withRx a' (withTx a s)) := hrx _ (SameRx.refl s)
  cases b <;> cases b' <;> simp [whenSelected, andThen, hij, hji, withTx_withRx]

/-- The instructions that are neither a call nor a datum. -/
theorem format_of_port (hi : i.level = .port) :
    i.format = some .txSelect ∨ i.format = some .rxSelect ∨ i = .reset := by
  cases i <;> simp_all [Instr.level, Instr.format, Format.isData]

theorem exec_cfg (h : exec i s = .next t) : t.cfg = s.cfg := by
  by_cases hi : i.level = .port
  · rcases format_of_port hi with hf | hf | rfl
    · obtain ⟨b, a, htx⟩ := exec_tx hf s
      rw [htx s (SameTx.refl s)] at h
      obtain ⟨-, rfl⟩ := whenSelected_next.1 h; rfl
    · obtain ⟨b, a, hrx⟩ := exec_rx hf s
      rw [hrx s (SameRx.refl s)] at h
      obtain ⟨-, rfl⟩ := whenSelected_next.1 h; rfl
    · cases h; rfl
  · obtain ⟨v, rfl⟩ := exec_ret hi h; rfl

theorem step_cfg (h : step s = .next t) : t.cfg = s.cfg := by
  obtain ⟨-, ⟨p, -, -, rfl⟩ | ⟨p, -, -, -, rfl⟩ | ⟨v, -, -, rfl⟩⟩ := step_cases h <;> simp

/-- Settles O5: no instruction writes the parameters, and a run is made of steps that do not. -/
theorem noRunChangesAParameter : Obligations.NoRunChangesAParameter := by
  unfold Obligations.NoRunChangesAParameter
  refine ⟨fun i s t => exec_cfg, fun n => ?_⟩
  induction n with
  | zero => intro s t h; cases h; rfl
  | succ n ih =>
    intro s t h
    obtain ⟨u, hstep, hrun⟩ := runSteps_succ h
    exact (ih u t hrun).trans (step_cfg hstep)

/-! ### Selected and not selected -/

theorem whenSelected_true {b : Bool} (hb : b = true) : whenSelected b t = .next t := if_pos hb

theorem whenSelected_false {b : Bool} (hb : b = false) : whenSelected b t = .fault .notSelected := by
  rw [hb]; rfl

/-- The selector bits with which TX_HOLD is selected (41_encode.md R96). -/
theorem txHold_selected_iff {ph : TxPhase} {v r : Bool} :
    (s.txPhase == ph && (if ph = .tIdle then !v else !r)) = true ↔
      s.txPhase = ph ∧ (ph = .tIdle → v = false) ∧ (ph ≠ .tIdle → r = false) := by
  by_cases h : ph = .tIdle <;> simp [h]

/-- The selector bits with which RX_HOLD is selected (42_decode.md R116). -/
theorem rxHold_selected_iff {rv v r : Bool} :
    (s.rxResValid == rv && (if rv then !r else !v)) = true ↔
      s.rxResValid = rv ∧ (rv = false → v = false) ∧ (rv = true → r = false) := by
  cases rv <;> simp

/-- Settles O34: a hold that is selected answers the state it is given. -/
theorem holdsChangeNoRegister : Obligations.HoldsChangeNoRegister := by
  unfold Obligations.HoldsChangeNoRegister
  exact ⟨fun s ph v r hphase hidle hbusy => whenSelected_true (txHold_selected_iff.2 ⟨hphase, hidle, hbusy⟩),
    fun s rv v l r hvalid hfree hpending => whenSelected_true (rxHold_selected_iff.2 ⟨hvalid, hfree, hpending⟩)⟩

/-- Settles O35: each clause is the negation of what selects the step. -/
theorem unselectedPortStepsFault : Obligations.UnselectedPortStepsFault := by
  unfold Obligations.UnselectedPortStepsFault
  refine ⟨fun s payload r h => ?_, fun s v h => ?_, fun s v h => ?_, fun s v h => ?_, fun s v h => ?_,
    fun s ph v r h => ?txHold, fun s d r h => ⟨?_, ?_⟩, fun s v l h => ?_, fun s rv v l r h => ?rxHold⟩
  case txHold =>
    refine whenSelected_false (Bool.eq_false_iff.2 fun hsel => ?_)
    obtain ⟨hphase, hidle, hbusy⟩ := txHold_selected_iff.1 hsel
    rcases h with h | ⟨h, hv⟩ | ⟨h, hr⟩
    · exact h hphase
    · simp [hidle h] at hv
    · simp [hbusy h] at hr
  case rxHold =>
    refine whenSelected_false (Bool.eq_false_iff.2 fun hsel => ?_)
    obtain ⟨hvalid, hfree, hpending⟩ := rxHold_selected_iff.1 hsel
    rcases h with h | ⟨h, hv⟩ | ⟨h, hr⟩
    · exact h hvalid
    · simp [hfree h] at hv
    · simp [hpending h] at hr
  all_goals exact whenSelected_false (by simp [h])

/-! ### One event of the script -/

theorem step_of_script {e : Event} (hwf : s.cfg.wf = true) (hscript : s.script = e :: rest) :
    step s = runEvent e { s with script := rest } := by
  rw [step, runNext, if_pos hwf, nextEvent_of_script hscript, popEvent_of_script hscript]

/-- Settles O11: an edge decodes the words of both units, the second in a state in which its format reads the same. -/
theorem stepRunsWhatTheNextEventDecodesTo : Obligations.StepRunsWhatTheNextEventDecodesTo := by
  unfold Obligations.StepRunsWhatTheNextEventDecodesTo
  refine ⟨fun s p rest i j hwf hseen hscript hrst htx hrx => ?edge, fun s p rest hwf hscript hrst => ?reset,
    fun s i rest hwf hscript hlevel => ?call, fun s f w i rest hwf hscript hdata hdecode => ?datum,
    fun s hscript => ?empty⟩
  case edge =>
    have hword : runWord .rxSelect (rxWord s.rxResValid p) = exec j := by
      funext t
      have hrx' : decode t.cfg .rxSelect (rxWord s.rxResValid p) = .ok j := hrx
      simp only [runWord, hrx']
    rw [step_of_script hwf hscript]
    simp only [runEvent, clockEdge, hrst, hseen, runWord, htx, Bool.not_true, Bool.false_eq_true, if_false]
    exact congrArg (andThen _) hword
  case reset => rw [step_reset hwf (nextEvent_of_script hscript) hrst, popEvent_of_script hscript, exec_reset]
  case call => simp only [step_of_script hwf hscript, runEvent, callFunction, hlevel]
  case datum => simp only [step_of_script hwf hscript, runEvent, readDatum, hdata, if_true, runWord, hdecode]
  case empty => simp [step, runNext, nextEvent, popEvent, hscript]

/-- Settles O12: each kind of event has one way to be no event. -/
theorem eventsOutsideTheFormatsAreRefused : Obligations.EventsOutsideTheFormatsAreRefused := by
  unfold Obligations.EventsOutsideTheFormatsAreRefused
  refine ⟨fun s i rest hwf hscript hlevel => ?call, fun s f w rest hwf hscript hdata => ?port,
    fun s f w why rest hwf hscript hdata hdecode => ?word⟩
  case call =>
    rw [step_of_script hwf hscript, runEvent, callFunction]
    cases h : i.level with
    | function => exact absurd h hlevel
    | port | data => rfl
  case port => simp only [step_of_script hwf hscript, runEvent, readDatum, hdata, Bool.false_eq_true, if_false]
  case word => simp only [step_of_script hwf hscript, runEvent, readDatum, hdata, if_true, runWord, hdecode]

/-- Settles O3: a live edge looks at `resetSeen` first. -/
theorem edgeBeforeTheFirstResetIsRefused : Obligations.EdgeBeforeTheFirstResetIsRefused := by
  unfold Obligations.EdgeBeforeTheFirstResetIsRefused
  intro s p rest hwf hseen hscript hrst
  simp [step_of_script hwf hscript, runEvent, clockEdge, hrst, hseen]

/-- What a legal configuration is (00_scope.md R6, R8, decision D15). -/
theorem Config.wf_iff : c.wf = true ↔ (∀ f ∈ c.schema, f.ty.wf = true) ∧ Schema.width c.schema = c.P ∧ 8 ≤ c.accW := by
  simp [Config.wf, and_assoc]

/-- Settles O4: each disjunct contradicts one part of being legal. -/
theorem illFormedInstanceIsRefused : Obligations.IllFormedInstanceIsRefused := by
  unfold Obligations.IllFormedInstanceIsRefused
  intro s h
  refine if_neg fun hwf => ?_
  obtain ⟨hfields, hwidth, haccW⟩ := Config.wf_iff.1 hwf
  rcases h with h | ⟨f, hf, hzero⟩ | h
  · exact h hwidth
  · have hlegal := hfields f hf
    rw [hzero] at hlegal
    cases hlegal
  · omega

end Sys2Proof.Machine
end

section
/-! What an edge does to each unit (20_memory.md R51): every edge completes, a unit that is not served keeps its share,
the phases follow the graph of R97, and neither unit looks at the other. -/

namespace Sys2Proof.Machine

variable {s t : State} {p p' : PortIn}

/-- Settles O13: an edge after reset steps both units, or resets them. -/
theorem everyEdgeAfterResetCompletes : Obligations.EveryEdgeAfterResetCompletes := by
  unfold Obligations.EveryEdgeAfterResetCompletes
  intro s p rest hwf hseen hscript
  have hlive : Live s := ⟨hwf, hseen⟩
  cases hrst : p.rst with
  | true =>
    exact ⟨_, step_reset hwf (nextEvent_of_script hscript) hrst, by simp [hscript], resetRegisters_resetSeen _⟩
  | false => exact ⟨_, hlive.step_edge hscript hrst, edgeNext_script hscript, (hlive.edgeNext p).seen⟩

/-- Settles O37: without `tx_out_ready` the TX unit's step is the hold. -/
theorem offeredByteIsKeptUntilTransferred : Obligations.OfferedByteIsKeptUntilTransferred := by
  unfold Obligations.OfferedByteIsKeptUntilTransferred
  intro s p rest hwf hseen hscript hrst hvalid hready
  have hsame := sameTx_edgeNext p s
  rw [txNext_stalled ((txOutputs_valid_iff s).1 hvalid) hready] at hsame
  exact ⟨_, Live.step_edge ⟨hwf, hseen⟩ hscript hrst, hsame, hsame.symm.outputs⟩

/-- Settles O44: without `rx_res_ready` a pending result leaves the RX unit the hold alone. -/
theorem pendingResultIsHeldAndBlocksTheInput : Obligations.PendingResultIsHeldAndBlocksTheInput := by
  unfold Obligations.PendingResultIsHeldAndBlocksTheInput
  intro s p rest hwf hseen hscript hrst hpending hready
  have hsame := sameRx_edgeNext p s
  rw [rxNext_held hpending hready] at hsame
  exact ⟨rxAccept_of_pending hpending, _, Live.step_edge ⟨hwf, hseen⟩ hscript hrst, hsame, hsame.symm.outputs⟩

/-- The edges of the phase graph (41_encode.md R97). -/
theorem txNext_txPhase_cases (p : PortIn) (s : State) :
    (txNext p s).txPhase = s.txPhase ∨
    (s.txPhase = .tIdle ∧ (txNext p s).txPhase = .tHdr) ∨
    (s.txPhase = .tHdr ∧ (txNext p s).txPhase = .tPay ∧ 1 ≤ s.cfg.P) ∨
    (s.txPhase = .tHdr ∧ (txNext p s).txPhase = .tChk ∧ s.cfg.P = 0) ∨
    (s.txPhase = .tPay ∧ (txNext p s).txPhase = .tChk ∧ s.txIdx + 1 = s.cfg.P) ∨
    (s.txPhase = .tChk ∧ (txNext p s).txPhase = .tFtr) ∨
    (s.txPhase = .tFtr ∧ (txNext p s).txPhase = .tIdle) := by
  cases hphase : s.txPhase with
  | tIdle => cases hreq : p.txReqValid <;> simp [txNext, hphase, hreq]
  | tHdr =>
    by_cases hP : 1 ≤ s.cfg.P <;> cases hready : p.txOutReady <;> simp [txNext, hphase, hready, hP]
    omega
  | tPay =>
    by_cases hlast : s.txIdx + 1 = s.cfg.P <;> cases hready : p.txOutReady <;> simp [txNext, hphase, hready, hlast]
  | tChk | tFtr => cases hready : p.txOutReady <;> simp [txNext, hphase, hready]

/-- Settles O38: RESET leads to `T_IDLE`, an edge follows the graph, a call or a datum leaves the phase. -/
theorem phaseGraphHasNoOtherEdge : Obligations.PhaseGraphHasNoOtherEdge := by
  unfold Obligations.PhaseGraphHasNoOtherEdge
  intro s t h
  obtain ⟨-, ⟨p, he, hrst, rfl⟩ | ⟨p, he, hrst, -, rfl⟩ | ⟨v, -, hr, rfl⟩⟩ := step_cases h
  · exact .inl ⟨by simp [he, Event.isReset, hrst], resetRegisters_txPhase _⟩
  · refine .inr ⟨by simp [he, Event.isReset, hrst], ?_⟩
    rw [← (sameTx_edge p s).txPhase_eq]
    exact txNext_txPhase_cases p s
  · exact .inr ⟨hr, .inl rfl⟩

theorem txNext_congr_ports (hreq : p.txReqValid = p'.txReqValid) (hpayload : p.txReqPayload = p'.txReqPayload)
    (hready : p.txOutReady = p'.txOutReady) : txNext p s = txNext p' s := by
  simp only [txNext, hreq, hpayload, hready]

theorem rxNext_congr_ports (hvalid : p.rxInValid = p'.rxInValid) (hdata : p.rxInData = p'.rxInData)
    (hlast : p.rxInLast = p'.rxInLast) (hready : p.rxResReady = p'.rxResReady) : rxNext p s = rxNext p' s := by
  simp only [rxNext, hvalid, hdata, hlast, hready]

theorem SameTx.resetRegisters (h : SameTx s t) : SameTx (resetRegisters s) (resetRegisters t) := by
  obtain ⟨hcfg, -, -, -, hbuf⟩ := h
  exact ⟨hcfg, rfl, rfl, rfl, hbuf⟩

theorem SameRx.resetRegisters (h : SameRx s t) : SameRx (resetRegisters s) (resetRegisters t) := by
  obtain ⟨hcfg, -, -, -, -, hbuf, -, -⟩ := h
  exact ⟨hcfg, rfl, rfl, rfl, rfl, hbuf, rfl, rfl⟩

/-- What an edge answers, if it answers a state. -/
theorem step_edge_cases {rest : List Event} (h : step s = .next t) (hscript : s.script = .edge p :: rest) :
    t = if p.rst then resetRegisters (popEvent s) else edgeNext p s := by
  have he := nextEvent_of_script hscript
  obtain ⟨-, ⟨q, hq, hrst, rfl⟩ | ⟨q, hq, hrst, -, rfl⟩ | ⟨v, hp, hr, -⟩⟩ := step_cases h
  · cases he.symm.trans hq; rw [if_pos hrst]
  · cases he.symm.trans hq; rw [hrst]; rfl
  · cases hrst : p.rst with
    | true => simp [he, Event.isReset, hrst] at hr
    | false => rw [livePorts_edge he hrst] at hp; cases hp

/-- Settles O50: RESET and each unit's step give equal shares from equal shares and inputs. -/
theorem unitsAreIndependent : Obligations.UnitsAreIndependent := by
  unfold Obligations.UnitsAreIndependent
  intro s s' t t' p p' rest rest' hscript hscript' hrst hstep hstep'
  rw [step_edge_cases hstep hscript, step_edge_cases hstep' hscript', ← hrst]
  constructor
  · intro hsame hreq hpayload hready
    suffices h : SameTx (if p.rst then resetRegisters (popEvent s) else edgeNext p s)
        (if p.rst then resetRegisters (popEvent s') else edgeNext p' s') from ⟨h, h.outputs⟩
    split
    · exact SameTx.resetRegisters hsame
    · have hnext : SameTx (txNext p s) (txNext p' s') := txNext_congr_ports hreq hpayload hready ▸ SameTx.step hsame
      exact ((sameTx_edgeNext p s).symm.trans hnext).trans (sameTx_edgeNext p' s')
  · intro hsame hvalid hdata hlast hready
    suffices h : SameRx (if p.rst then resetRegisters (popEvent s) else edgeNext p s)
        (if p.rst then resetRegisters (popEvent s') else edgeNext p' s') from ⟨h, h.outputs⟩
    split
    · exact SameRx.resetRegisters hsame
    · have hnext : SameRx (rxNext p s) (rxNext p' s') :=
        rxNext_congr_ports hvalid hdata hlast hready ▸ SameRx.step hsame
      exact ((sameRx_edgeNext p s).symm.trans hnext).trans (sameRx_edgeNext p' s')

end Sys2Proof.Machine
end

section
/-! Idle states are equivalent (10_state.md R39): two states are alike when their ports and their next steps cannot tell
them apart; idle states are, and every step keeps it. -/

namespace Sys2Proof.Machine

variable {s s' t : State} {p : PortIn} {d : Byte}

/-! ### The TX unit -/

/-- An idle TX unit's registers are not looked at before a payload is captured, which sets all of them. -/
def TxAlike (s s' : State) : Prop := SameTx s s' ∨ s.cfg = s'.cfg ∧ TxIdle s ∧ TxIdle s'

theorem TxAlike.symm (h : TxAlike s s') : TxAlike s' s := h.imp SameTx.symm fun ⟨hcfg, hs, hs'⟩ => ⟨hcfg.symm, hs', hs⟩

theorem TxAlike.congr {t' : State} (hs : SameTx s t) (hs' : SameTx s' t') (h : TxAlike s s') : TxAlike t t' := by
  rcases h with h | ⟨hcfg, hidle, hidle'⟩
  · exact .inl ((hs.symm.trans h).trans hs')
  · exact .inr ⟨hs.1.symm.trans (hcfg.trans hs'.1), hs.txPhase_eq.symm.trans hidle, hs'.txPhase_eq.symm.trans hidle'⟩

theorem TxAlike.outputs (h : TxAlike s s') : txOutputs s = txOutputs s' := by
  rcases h with h | ⟨-, hidle, hidle'⟩
  · exact h.outputs
  · rw [txOutputs_of_txPhase hidle, txOutputs_of_txPhase hidle']; rfl

theorem TxAlike.txNext (h : TxAlike s s') (p : PortIn) : TxAlike (txNext p s) (txNext p s') := by
  rcases h with h | ⟨hcfg, hidle, hidle'⟩
  · exact .inl (SameTx.step h)
  · cases hreq : p.txReqValid with
    | false => rw [txNext_quiet hidle hreq, txNext_quiet hidle' hreq]; exact .inr ⟨hcfg, hidle, hidle'⟩
    | true =>
      rw [txNext_request hidle hreq, txNext_request hidle' hreq]
      exact .inl ⟨hcfg, rfl, rfl, rfl, by simp only [hcfg]⟩

/-! ### The RX unit -/

/-- The RX unit reads the checksum byte at offset `P + 2` only, of the buffer the payload bytes received only, and shows
the buffer with a success only. -/
structure RxAlike (s s' : State) : Prop where
  cfg     : s.cfg = s'.cfg
  cnt     : s.rxCnt = s'.rxCnt
  sum     : s.rxSum = s'.rxSum
  hdrOk   : s.rxHdrOk = s'.rxHdrOk
  valid   : s.rxResValid = s'.rxResValid
  code    : s.rxResCode = s'.rxResCode
  chk     : s.cfg.P + 2 ≤ s.rxCnt → s.rxChk = s'.rxChk
  payload : payloadSoFar s = payloadSoFar s'
  shown   : s.rxResValid = true → s.rxResCode = .ok → s.rxBuf.bytes .rx s.cfg.P = s'.rxBuf.bytes .rx s'.cfg.P

theorem RxAlike.symm (h : RxAlike s s') : RxAlike s' s where
  cfg := h.cfg.symm
  cnt := h.cnt.symm
  sum := h.sum.symm
  hdrOk := h.hdrOk.symm
  valid := h.valid.symm
  code := h.code.symm
  chk := fun hcnt => (h.chk (h.cfg ▸ h.cnt ▸ hcnt)).symm
  payload := h.payload.symm
  shown := fun hvalid hok => (h.shown (h.valid.trans hvalid) (h.code.trans hok)).symm

/-- The registers of a unit at offset 0 that shows no success decide everything. -/
theorem RxAlike.of_start (hcfg : s.cfg = s'.cfg) (hcnt : s.rxCnt = 0) (hcnt' : s'.rxCnt = 0) (hsum : s.rxSum = s'.rxSum)
    (hhdr : s.rxHdrOk = s'.rxHdrOk) (hvalid : s.rxResValid = s'.rxResValid) (hcode : s.rxResCode = s'.rxResCode)
    (hshown : s.rxResValid = true → s.rxResCode = .ok → s.rxBuf.bytes .rx s.cfg.P = s'.rxBuf.bytes .rx s'.cfg.P) :
    RxAlike s s' where
  cfg := hcfg
  cnt := hcnt.trans hcnt'.symm
  sum := hsum
  hdrOk := hhdr
  valid := hvalid
  code := hcode
  chk := fun h => by omega
  payload := by simp [payloadSoFar, hcnt, hcnt']
  shown := hshown

theorem RxAlike.of_idle (hs : RxInv s) (hs' : RxInv s') (hidle : RxIdle s) (hidle' : RxIdle s')
    (hcfg : s.cfg = s'.cfg) : RxAlike s s' := by
  obtain ⟨hsum, hhdr⟩ := hs.start hidle.1
  obtain ⟨hsum', hhdr'⟩ := hs'.start hidle'.1
  exact .of_start hcfg hidle.1 hidle'.1 (hsum.trans hsum'.symm) (hhdr.trans hhdr'.symm) (hidle.2.trans hidle'.2.symm)
    ((hs.code_ok hidle.2).trans (hs'.code_ok hidle'.2).symm) fun hvalid => by simp [hidle.2] at hvalid

theorem RxAlike.of_sameRx (h : SameRx s s') : RxAlike s s' := by
  obtain ⟨hcfg, hcnt, hsum, hhdr, hchk, hbuf, hvalid, hcode⟩ := h
  exact ⟨hcfg, hcnt, hsum, hhdr, hvalid, hcode, fun _ => hchk, by simp only [payloadSoFar, hcfg, hcnt, hbuf],
    fun _ _ => by rw [hcfg, hbuf]⟩

theorem RxAlike.trans {s'' : State} (h : RxAlike s s') (h' : RxAlike s' s'') : RxAlike s s'' where
  cfg := h.cfg.trans h'.cfg
  cnt := h.cnt.trans h'.cnt
  sum := h.sum.trans h'.sum
  hdrOk := h.hdrOk.trans h'.hdrOk
  valid := h.valid.trans h'.valid
  code := h.code.trans h'.code
  chk := fun hcnt => (h.chk hcnt).trans (h'.chk (h.cfg ▸ h.cnt ▸ hcnt))
  payload := h.payload.trans h'.payload
  shown := fun hvalid hok =>
    (h.shown hvalid hok).trans (h'.shown (h.valid.symm.trans hvalid) (h.code.symm.trans hok))

theorem RxAlike.congr {t' : State} (hs : SameRx s t) (hs' : SameRx s' t') (h : RxAlike s s') : RxAlike t t' :=
  (RxAlike.of_sameRx hs.symm).trans (h.trans (.of_sameRx hs'))

theorem RxAlike.outputs (h : RxAlike s s') : rxOutputs s = rxOutputs s' := by
  by_cases hshows : s.rxResValid = true ∧ s.rxResCode = .ok
  · simp only [rxOutputs, h.shown hshows.1 hshows.2, h.valid, h.code]
  · have hpayload := rxOutputs_resPayload_of_not_ok s hshows
    have hpayload' := rxOutputs_resPayload_of_not_ok s' (h.valid ▸ h.code ▸ hshows)
    calc rxOutputs s = ⟨!s.rxResValid, s.rxResValid, s.rxResCode, (rxOutputs s).resPayload⟩ := rfl
      _ = ⟨!s'.rxResValid, s'.rxResValid, s'.rxResCode, (rxOutputs s').resPayload⟩ := by
        rw [hpayload, hpayload', h.valid, h.code]
      _ = rxOutputs s' := rfl

theorem RxAlike.beatNext (h : RxAlike s s') (hfree : s.rxResValid = false) (d : Byte) :
    RxAlike (beatNext d s) (beatNext d s') where
  cfg := by simpa using h.cfg
  cnt := by simp [h.cnt, h.cfg]
  sum := by simp [Machine.beatNext, place_eq, h.cnt, h.cfg, h.sum]
  hdrOk := by simp [Machine.beatNext, place_eq, h.cnt, h.cfg, h.hdrOk]
  valid := by simpa using h.valid
  code := by simpa using h.code
  chk := fun hcnt => by
    have hchk := h.chk
    have hcfg := h.cfg
    have hcnt' := h.cnt
    rw [beatNext_cfg, beatNext_rxCnt] at hcnt
    by_cases hlast : s.rxCnt = s.cfg.P + 1
    · simp [Machine.beatNext, place_eq, hlast, ← hcnt', ← hcfg]
    · simp [Machine.beatNext, place_eq, hlast, ← hcnt', ← hcfg, hchk (by omega)]
  payload := by rw [payloadSoFar_beatNext, payloadSoFar_beatNext, h.cfg, h.cnt, h.payload]
  shown := fun hvalid => by simp [hfree] at hvalid

theorem RxAlike.lastCode (h : RxAlike s s') (d : Byte) : lastCode s d = lastCode s' d := by
  unfold Machine.lastCode
  by_cases hcnt : s.rxCnt = s.cfg.P + 2
  · rw [h.cfg, h.cnt, h.hdrOk, h.sum, h.chk (by omega)]
  · rw [resultCode_lengthMismatch hcnt, resultCode_lengthMismatch (h.cfg ▸ h.cnt ▸ hcnt)]

theorem RxAlike.lastNext (h : RxAlike s s') (d : Byte) : RxAlike (lastNext d s) (lastNext d s') := by
  refine .of_start (by simpa using h.cfg) rfl rfl rfl rfl rfl (h.lastCode d) fun _ hok => ?_
  rw [lastNext_cfg, lastNext_cfg, bytes_lastNext_of_ok hok, bytes_lastNext_of_ok ((h.lastCode d).symm.trans hok),
    h.payload]

theorem RxAlike.rxNext (h : RxAlike s s') (hs : RxInv s) (hs' : RxInv s') (p : PortIn) :
    RxAlike (rxNext p s) (rxNext p s') := by
  cases hvalid : s.rxResValid with
  | true =>
    have hvalid' : s'.rxResValid = true := h.valid.symm.trans hvalid
    cases hready : p.rxResReady with
    | false => rw [rxNext_held hvalid hready, rxNext_held hvalid' hready]; exact h
    | true =>
      rw [rxNext_take hvalid hready, rxNext_take hvalid' hready]
      exact .of_start h.cfg (hs.pending_idle hvalid).1 (hs'.pending_idle hvalid').1 h.sum h.hdrOk rfl rfl
        fun hvalid => by cases hvalid
  | false =>
    have hvalid' : s'.rxResValid = false := h.valid.symm.trans hvalid
    cases hin : p.rxInValid with
    | false => rw [rxNext_quiet hvalid hin, rxNext_quiet hvalid' hin]; exact h
    | true => cases hlast : p.rxInLast with
      | false => rw [rxNext_beat hvalid hin hlast, rxNext_beat hvalid' hin hlast]; exact h.beatNext hvalid p.rxInData
      | true => rw [rxNext_last hvalid hin hlast, rxNext_last hvalid' hin hlast]; exact h.lastNext p.rxInData

/-! ### The bisimulation -/

/-- Two states that meet the invariants and have the same environment ahead cannot be told apart. -/
structure Alike (s s' : State) : Prop where
  inv    : Inv s
  inv'   : Inv s'
  tx     : TxAlike s s'
  rx     : RxAlike s s'
  script : s.script = s'.script
  seen   : s.resetSeen = s'.resetSeen

theorem Alike.symm (h : Alike s s') : Alike s' s := ⟨h.inv', h.inv, h.tx.symm, h.rx.symm, h.script.symm, h.seen.symm⟩

theorem Alike.outputs (h : Alike s s') : outputsSeen s = outputsSeen s' := by
  rw [outputsSeen, outputsSeen, h.tx.outputs, h.rx.outputs]

/-- A call or a datum is answered as the parameters decide. -/
theorem step_quiet_congr {u : State} (hcfg : u.cfg = s.cfg) (hscript : u.script = s.script) (hp : livePorts s = none)
    (hr : (nextEvent s).isReset = false) (h : step s = .next t) : step u = .next { popEvent u with ret := t.ret } := by
  obtain ⟨hwf, -⟩ := step_cases h
  have he : nextEvent u = nextEvent s := by rw [nextEvent, nextEvent, hscript]
  have hcfg' : (popEvent u).cfg = (popEvent s).cfg := hcfg
  rw [step, runNext, if_pos hwf] at h
  rw [step, runNext, if_pos (hcfg ▸ hwf), he]
  cases hev : nextEvent s with
  | edge p =>
    cases hrst : p.rst with
    | true => simp [hev, Event.isReset, hrst] at hr
    | false => rw [livePorts_edge hev hrst] at hp; cases hp
  | call i =>
    rw [hev] at h
    simp only [runEvent, callFunction] at h ⊢
    cases hlevel : i.level with
    | function => rw [hlevel] at h; exact exec_next_congr (by simp [hlevel]) hcfg' h
    | port | data => rw [hlevel] at h; cases h
  | datum f w =>
    rw [hev] at h
    simp only [runEvent, readDatum] at h ⊢
    split at h
    · rename_i hdata
      rw [if_pos hdata]
      unfold runWord at h ⊢
      cases hi : decode (popEvent s).cfg f w with
      | error why => rw [hi] at h; cases h
      | ok i =>
        have hi' : decode (popEvent u).cfg f w = .ok i := by rw [hcfg', hi]
        rw [hi] at h
        rw [hi']
        exact exec_next_congr (by simp [Instr.level, decode_format hi, hdata]) hcfg' h
    · cases h

theorem Alike.step (h : Alike s s') (hstep : step s = .next t) : ∃ t', Machine.step s' = .next t' ∧ Alike t t' := by
  have hcfg : s'.cfg = s.cfg := h.rx.cfg.symm
  have hseen := h.seen
  have he : nextEvent s' = nextEvent s := by rw [nextEvent, nextEvent, h.script]
  have hscript : (popEvent s).script = (popEvent s').script := congrArg List.tail h.script
  suffices hmatch : ∃ t', Machine.step s' = .next t' ∧ TxAlike t t' ∧ RxAlike t t' ∧ t.script = t'.script ∧
      t.resetSeen = t'.resetSeen by
    obtain ⟨t', hstep', htx, hrx, hscript, hseen⟩ := hmatch
    exact ⟨t', hstep', h.inv.step hstep, h.inv'.step hstep', htx, hrx, hscript, hseen⟩
  obtain ⟨hwf, ⟨p, hp, hrst, rfl⟩ | ⟨p, hp, hrst, hlive, rfl⟩ | ⟨v, hp, hr, rfl⟩⟩ := step_cases hstep
  · refine ⟨_, step_reset (hcfg ▸ hwf) (he.trans hp) hrst, .inr ⟨hcfg.symm, rfl, rfl⟩, ?_, hscript, rfl⟩
    exact .of_start hcfg.symm rfl rfl rfl rfl rfl rfl fun hvalid => by cases hvalid
  · refine ⟨_, step_live (hcfg ▸ hwf) (hseen ▸ hlive) (he.trans hp) hrst, ?_, ?_, by simpa using hscript,
      by simpa using hseen⟩
    · exact (h.tx.txNext p).congr (sameTx_edge p s) (sameTx_edge p s')
    · exact (h.rx.rxNext h.inv.rx h.inv'.rx p).congr (sameRx_edge p s) (sameRx_edge p s')
  · exact ⟨_, step_quiet_congr hcfg h.script.symm hp hr hstep,
      h.tx.congr (SameTx.popEvent s) (SameTx.popEvent s'), h.rx.congr (SameRx.popEvent s) (SameRx.popEvent s'),
      hscript, hseen⟩

theorem along_stuck {α : Type} {f : State → List α} {n : Nat} (h : ∀ t, step s ≠ .next t) :
    along f (n + 1) s = f s := by
  rw [along]
  split
  · exact absurd ‹_› (h _)
  · exact List.append_nil _
  · exact List.append_nil _

theorem Alike.along_outputs {n : Nat} (h : Alike s s') : along outputsSeen n s = along outputsSeen n s' := by
  induction n generalizing s s' with
  | zero => rfl
  | succ n ih =>
    by_cases hstep : ∃ t, Machine.step s = .next t
    · obtain ⟨t, hstep⟩ := hstep
      obtain ⟨t', hstep', ht⟩ := h.step hstep
      rw [along_next hstep, along_next hstep', h.outputs, ih ht]
    · have hstuck' : ∀ t', Machine.step s' ≠ .next t' := fun t' hstep' =>
        hstep ((h.symm.step hstep').imp fun _ ht => ht.1)
      rw [along_stuck fun t ht => hstep ⟨t, ht⟩, along_stuck hstuck', h.outputs]

/-- Settles O52: idle states are alike, alike states show the same outputs, and every step keeps them alike. -/
theorem idleStatesAreEquivalent : Obligations.IdleStatesAreEquivalent := by
  unfold Obligations.IdleStatesAreEquivalent
  intro n s s' hinv hinv' htx hrx htx' hrx' hcfg hscript hseen
  exact Alike.along_outputs
    ⟨hinv, hinv', .inr ⟨hcfg, htx, htx'⟩, .of_idle hinv.rx hinv'.rx hrx hrx' hcfg, hscript, hseen⟩

end Sys2Proof.Machine
end

section
/-! The checksum and the codec (40_checksum.md, 42_decode.md R110, 43_schema.md R128, 70_reset_and_hazards.md R156):
accumulators, sums, single altered bytes, inverse bijections, byte orders, and ill-typed arguments. -/

namespace Sys2Proof.Machine

variable {c : Config} {b p : List Byte} {x : List FieldValue} {o o' : ByteOrder}

/-! ### The checksum -/

/-- Settles O15: an accumulator started at 0 holds the byte sum modulo its range. -/
theorem everyAccumulatorWidthGivesTheChecksum : Obligations.EveryAccumulatorWidthGivesTheChecksum := by
  unfold Obligations.EveryAccumulatorWidthGivesTheChecksum
  intro w b hw
  have hsum : b.foldl (accumulate w) 0 = byteSum b % 2 ^ w := by simpa using foldl_accumulate w b 0
  rw [hsum, lowByte_byteSum w b hw]

theorem checksum_append (a b : List Byte) : checksum (a ++ b) = checksum a + checksum b := by
  apply BitVec.eq_of_toNat_eq
  rw [checksum_toNat, BitVec.toNat_add, checksum_toNat, checksum_toNat, byteSum_append, ← Nat.add_mod]

theorem checksum_perm {a b : List Byte} (h : a.Perm b) : checksum a = checksum b := by
  rw [checksum, checksum, byteSum_perm h]

/-- Settles O16: sums add, and a permutation has the same sum. -/
theorem checksumAddsAndIgnoresOrder : Obligations.ChecksumAddsAndIgnoresOrder := by
  unfold Obligations.ChecksumAddsAndIgnoresOrder
  exact ⟨checksum_append, fun _ _ => checksum_perm⟩

/-- The sum moves by the difference of two bytes, which is less than 256. -/
theorem checksum_set_ne {k : Nat} {v : Byte} (hk : k < b.length) (hv : b[k]? ≠ some v) :
    checksum (b.set k v) ≠ checksum b := by
  intro h
  have hmod := congrArg BitVec.toNat h
  rw [checksum_toNat, checksum_toNat] at hmod
  have hsum := byteSum_set b k v hk
  have hsame : b[k] = v := BitVec.eq_of_toNat_eq (by have := b[k].isLt; have := v.isLt; omega)
  exact hv (by rw [List.getElem?_eq_getElem hk, hsame])

/-- Settles O17: the sum of the altered sequence differs by less than the modulus. -/
theorem oneChangedByteChangesTheChecksum : Obligations.OneChangedByteChangesTheChecksum := by
  unfold Obligations.OneChangedByteChangesTheChecksum
  exact fun _ _ _ => checksum_set_ne

/-! ### One altered byte of a frame -/

theorem payload_set (f : List Byte) (k n : Nat) (v : Byte) :
    ((f.set (k + 1) v).drop 1).take n = ((f.drop 1).take n).set k v := by
  rw [List.drop_set, if_neg (by omega), List.take_set, Nat.add_sub_cancel]

/-- Settles O26: the altered byte leaves header and footer as they are, and either the payload's checksum or the
checksum byte changes, not both. -/
theorem oneAlteredPayloadByteIsAChecksumMismatch : Obligations.OneAlteredPayloadByteIsAChecksumMismatch := by
  unfold Obligations.OneAlteredPayloadByteIsAChecksumMismatch
  intro c f p k v hvalid h1 hk hv
  obtain ⟨hlength, hheader, hfooter, hp, hchecksum⟩ := decodeFrame_valid hvalid
  have hplen : p.length = c.P := by rw [hp]; simp; omega
  obtain ⟨j, rfl⟩ := Nat.exists_eq_add_of_le' h1
  refine decodeFrame_checksumMismatch (by simpa using hlength) ?_ ?_ ?_
  · rw [List.getElem?_set_ne (by omega), hheader]
  · rw [List.getElem?_set_ne (by omega), hfooter]
  · rw [payload_set, ← hp]
    by_cases hpayload : j < c.P
    · rw [List.getElem?_set_ne (by omega), hchecksum]
      have hv' : p[j]? ≠ some v := by
        rw [hp, List.getElem?_take_of_lt hpayload, List.getElem?_drop, Nat.add_comm]; exact hv
      exact fun h => checksum_set_ne (hplen ▸ hpayload) hv' (Option.some.inj h).symm
    · obtain rfl : j = c.P := by omega
      rw [List.set_eq_of_length_le hplen.le, List.getElem?_set_self (by omega), ← hchecksum]
      exact fun h => hv h.symm

/-! ### Pack and unpack -/

/-- Each field takes its width of what is left, so the values are of the schema's types and their images the bytes. -/
theorem packFields_unpackFields {fs : Schema} (hp : p.length = fs.width) :
    fs.admits (unpackFields o fs p) = true ∧ packFields o (unpackFields o fs p) = p := by
  induction fs generalizing p with
  | nil => exact ⟨rfl, (List.eq_nil_of_length_eq_zero hp).symm⟩
  | cons f fs ih =>
    have hwidth : p.length = f.ty.width + Schema.width fs := hp
    obtain ⟨hadmits, hpack⟩ := ih (p := p.drop f.ty.width) (by rw [List.length_drop]; omega)
    refine ⟨?_, ?_⟩
    · simp only [unpackFields, Schema.admits, hadmits, conforms_fieldRead o f.ty p (by omega), Bool.and_self]
    · rw [unpackFields, packFields, hpack, fieldImage_fieldRead o f.ty p (by omega), List.take_append_drop]

/-- Settles O20, by induction on the schema in both directions. -/
theorem packAndUnpackAreInverse : Obligations.PackAndUnpackAreInverse := by
  unfold Obligations.PackAndUnpackAreInverse
  exact ⟨fun c x _ hx => unpack_pack hx,
    fun c p hwf hp => packFields_unpackFields (hp.trans (Config.wf_width hwf).symm)⟩

/-! ### Byte orders -/

theorem wordImage_perm (v : Word32) : (wordImage o v).Perm (wordImage o' v) := by
  have hreverse : wordImage .big v = (wordImage .little v).reverse := rfl
  cases o <;> cases o'
  · exact .refl _
  · rw [hreverse]; exact (List.reverse_perm _).symm
  · rw [hreverse]; exact List.reverse_perm _
  · exact .refl _

theorem fieldImage_perm (x : FieldValue) : (fieldImage o x).Perm (fieldImage o' x) := by
  cases x with
  | i32 v | f32 v => exact wordImage_perm v
  | bytes a => exact .refl a

/-- The byte order permutes the bytes of a packed payload. -/
theorem packFields_perm (x : List FieldValue) : (packFields o x).Perm (packFields o' x) := by
  induction x with
  | nil => exact .refl []
  | cons v x ih => exact (fieldImage_perm v).append ih

/-- Settles O29: the checksum ignores the order of the bytes, and DECODE_FRAME does not look at the byte order. -/
theorem byteOrderMismatchIsNotDetected : Obligations.ByteOrderMismatchIsNotDetected := by
  unfold Obligations.ByteOrderMismatchIsNotDetected
  exact fun c o x hwf hx => ⟨checksum_perm (packFields_perm x), decodeFrame_encodeFrame (length_pack hwf hx)⟩

/-! ### Ill-typed arguments -/

theorem withSchema_illFormed {s : State} (k : Host.Outcome State Fault Refusal) (hwf : s.cfg.wf = false) :
    withSchema s k = .refused .illFormedConfig :=
  if_neg (by simp [hwf])

theorem withSchema_refused {s : State} {k : Host.Outcome State Fault Refusal} {r : Refusal} (hwf : s.cfg.wf = true)
    (hk : k = .refused r) : withSchema s k = .refused r :=
  (if_pos hwf).trans hk

/-- Settles O24: the schema is checked first, then the argument. -/
theorem illTypedArgumentsAreRefused : Obligations.IllTypedArgumentsAreRefused := by
  unfold Obligations.IllTypedArgumentsAreRefused
  refine ⟨fun s x hwf hx => ⟨?_, ?_⟩, fun s p hwf hp => ?_, fun s p hp => if_neg hp, fun s x p b hwf => ?_⟩
  · exact withSchema_refused hwf (if_neg (by simp [hx]))
  · exact withSchema_refused hwf (if_neg (by simp [hx]))
  · exact withSchema_refused hwf (if_neg hp)
  · exact ⟨withSchema_illFormed _ hwf, withSchema_illFormed _ hwf, withSchema_illFormed _ hwf,
      withSchema_illFormed _ hwf⟩

end Sys2Proof.Machine
end

section
/-! The data formats (30_encoding.md sections 1 to 3): what reading a datum gives. -/

namespace Sys2Proof.Machine

/-! ### Frames -/

theorem leBytes_getElem? {n k v : Nat} (hk : k < n) : (leBytes n v)[k]? = some (BitVec.ofNat 8 (v / 256 ^ k)) := by
  rw [← portBytes_eq_leBytes, getElem?_portBytes v hk]; rfl

/-- The byte at offset `m` of a number written first byte first is the `m`-th slice from the top. -/
theorem beBytes_getElem? {n m : Nat} (w : BitVec (8 * n)) (hm : m < n) :
    (beBytes n w.toNat)[m]? = some (w.extractLsb' (8 * (n - 1 - m)) 8) := by
  rw [beBytes, List.getElem?_reverse (by simpa using hm), length_leBytes, leBytes_getElem? (by omega)]
  congr 1
  apply BitVec.eq_of_toNat_eq
  rw [BitVec.toNat_ofNat, BitVec.extractLsb'_toNat, Nat.shiftRight_eq_div_pow, Nat.pow_mul]

/-- Two bytes side by side, written first byte first. -/
theorem beBytes_append (a0 a1 : Byte) : beBytes 2 (a0 ++ a1).toNat = [a0, a1] := by
  have hvalue : (a0 ++ a1).toNat = beValue [a0, a1] := by
    rw [BitVec.toNat_append, ← Nat.shiftLeft_add_eq_or_of_lt a1.isLt, Nat.shiftLeft_eq]
    simp [beValue, leValue]
    omega
  rw [hvalue]; exact beBytes_beValue [a0, a1]

theorem frameView_eq (header footer : Byte) (p : List Byte) (k : Byte) :
    frameView header footer p k = ⟨header, p, k, footer, decide (k = checksum p)⟩ := by
  rw [frameView, beq_eq_decide]

/-- Settles O55: a row of a fixed length takes its payload apart by bytes. -/
theorem frameRowsGiveTheirParts : Obligations.FrameRowsGiveTheirParts := by
  unfold Obligations.FrameRowsGiveTheirParts
  refine ⟨fun s p k hp => ?_, fun s p k hp => if_neg hp, fun s k => ?_, fun s a0 a1 k => ?_, fun s p k => ?_,
    fun s p k => ?_⟩
  · exact (if_pos hp).trans (by rw [frameView_eq]; rfl)
  · exact congrArg (giveBack s ∘ Ret.frame) (frameView_eq 0xAA 0x55 [] k)
  · exact congrArg (giveBack s ∘ Ret.frame) ((congrArg (frameView 0xAA 0x55 · k) (beBytes_append a0 a1)).trans
      (frameView_eq 0xAA 0x55 [a0, a1] k))
  · refine ⟨beBytes 12 p.toNat, length_beBytes .., fun m => beBytes_getElem? (n := 12) p, ?_⟩
    exact congrArg (giveBack s ∘ Ret.frame) (frameView_eq ..)
  · refine ⟨beBytes 16 p.toNat, length_beBytes .., fun m => beBytes_getElem? (n := 16) p, ?_⟩
    exact congrArg (giveBack s ∘ Ret.frame) (frameView_eq ..)

/-! ### Fields -/

/-- The slices of a pattern are the bytes of its image. -/
theorem wordValue_slices (b0 b1 b2 b3 : Byte) :
    (wordValue .little b0 b1 b2 b3).extractLsb' 0 8 = b0 ∧ (wordValue .little b0 b1 b2 b3).extractLsb' 8 8 = b1 ∧
    (wordValue .little b0 b1 b2 b3).extractLsb' 16 8 = b2 ∧ (wordValue .little b0 b1 b2 b3).extractLsb' 24 8 = b3 := by
  simpa [wordImage] using wordImage_wordValue .little b0 b1 b2 b3

/-- Settles O56: the pattern is the one whose image the four bytes are. -/
theorem fieldRowsGiveTheirPattern : Obligations.FieldRowsGiveTheirPattern := by
  unfold Obligations.FieldRowsGiveTheirPattern
  refine ⟨fun s b0 b1 b2 b3 => ?_, fun s b0 b1 b2 b3 => ?_, fun s a ha => ?_, fun s => rfl⟩
  · obtain ⟨h0, h1, h2, h3⟩ := wordValue_slices b0 b1 b2 b3
    exact ⟨wordValue .little b0 b1 b2 b3, h0, h1, h2, h3, rfl, rfl⟩
  · obtain ⟨h3, h2, h1, h0⟩ := wordValue_slices b3 b2 b1 b0
    exact ⟨wordValue .big b0 b1 b2 b3, h0, h1, h2, h3, rfl, rfl⟩
  · exact (if_pos ha).trans (by rw [fieldRead, List.take_length]; rfl)

/-! ### Beats, codes and phases -/

/-- Settles O57, row by row. -/
theorem beatCodeAndPhaseRowsGiveTheirMeaning : Obligations.BeatCodeAndPhaseRowsGiveTheirMeaning := by
  unfold Obligations.BeatCodeAndPhaseRowsGiveTheirMeaning
  exact fun s => ⟨fun _ _ _ => rfl, fun _ _ => rfl, rfl, rfl, rfl, rfl, rfl, rfl, rfl, rfl, rfl, rfl⟩

end Sys2Proof.Machine
end
